-- ==== Sys2Proof/Word.lean ====
section
/-! DEFINITION. The widths the TPE's registers and cells have (spec R12, R13), and triples indexed by channel. -/

namespace Sys2Proof

/-- A bus word, a register or a command word: 32 bits (10_state section 2, R120). -/
abbrev Word := BitVec 32

/-- A pixel sample: 8 bits, unsigned (R12). -/
abbrev Byte := BitVec 8

/-- A symbol: a 16-bit container (R12, R91). -/
abbrev Sym := BitVec 16

/-- One value for each of the three channels (R12): channel 0 is red, 1 green, 2 blue (R50). -/
structure Tri (α : Type) where
  c0 : α
  c1 : α
  c2 : α
  deriving DecidableEq, Repr

/-- The entry of channel `c`. -/
def Tri.get {α : Type} (t : Tri α) (c : Fin 3) : α :=
  match c with
  | 0 => t.c0
  | 1 => t.c1
  | 2 => t.c2

/-- The triple with the entry of channel `c` replaced. -/
def Tri.set {α : Type} (t : Tri α) (c : Fin 3) (a : α) : Tri α :=
  match c with
  | 0 => { t with c0 := a }
  | 1 => { t with c1 := a }
  | 2 => { t with c2 := a }

/-- The triple whose entry of channel `c` is `f c`. -/
def Tri.ofFn {α : Type} (f : Fin 3 → α) : Tri α := ⟨f 0, f 1, f 2⟩

/-- The same value on all three channels. -/
def Tri.all {α : Type} (a : α) : Tri α := ⟨a, a, a⟩

end Sys2Proof
end

