-- ==== Sys2Proof/Syntax.lean ====
section
/-! DEFINITION. The ten commands of spec/opcode_table.json (30_encoding R127), with their operand fields (R121 to R126). -/

namespace Sys2Proof

/-- A command. Operand fields have the width of their field in the word, so `ch` and `st` can hold the reserved value 3. -/
inductive Instr where
  /-- R350 -/
  | nop
  /-- R180: format P -/
  | enc (ch : BitVec 2) (pix : Byte)
  /-- R220: format P -/
  | fenc (ch : BitVec 2) (pix : Byte)
  /-- R351: format M -/
  | balrst (mask : BitVec 3)
  /-- R225: format T -/
  | lutrd (st : BitVec 2) (pix : Byte)
  /-- R251: format X -/
  | blkrd (x : BitVec 12) (y : BitVec 12)
  /-- R280 -/
  | compose
  /-- R320 -/
  | fetch
  /-- R353 -/
  | clrerr
  /-- R355 -/
  | srst
  deriving DecidableEq, Repr

end Sys2Proof
end

