-- ==== Sys2Proof/WellFormed.lean ====
section
/-! DEFINITION. Which commands are legal (spec 30_encoding R128): CH and ST are 0, 1 or 2. -/

namespace Sys2Proof

/-- A command an assembler accepts (R131): CH = 3 and ST = 3 are reserved (R122, R123); nothing else is. -/
def Instr.wf : Instr → Bool
  | .nop => true
  | .enc ch _ => ch != 3
  | .fenc ch _ => ch != 3
  | .balrst _ => true
  | .lutrd st _ => st != 3
  | .blkrd _ _ => true
  | .compose => true
  | .fetch => true
  | .clrerr => true
  | .srst => true

end Sys2Proof
end

