-- ==== Sys2Proof/Decode.lean ====
section
/-! DEFINITION. The decoder (spec 30_encoding R129), total on all words, and the encoder of the assembler table (R131). -/

namespace Sys2Proof

/-! ## Fields of a command word (R121 to R126): unsigned, taken directly from their bits -/

/-- OPC = w[7:0] (R120). -/
def opcOf (w : Word) : BitVec 8 := w.extractLsb' 0 8

/-- CH = w[9:8] of format P and ST = w[9:8] of format T (R122, R123). -/
def chOf (w : Word) : BitVec 2 := w.extractLsb' 8 2

/-- PIX = w[17:10] (R122, R123). -/
def pixOf (w : Word) : Byte := w.extractLsb' 10 8

/-- MASK = w[10:8] (R124). -/
def maskOf (w : Word) : BitVec 3 := w.extractLsb' 8 3

/-- X = w[19:8] (R125). -/
def xOf (w : Word) : BitVec 12 := w.extractLsb' 8 12

/-- Y = w[31:20] (R125). -/
def yOf (w : Word) : BitVec 12 := w.extractLsb' 20 12

/-- Format N's reserved bits, w[31:8] (R121). -/
def reservedN (w : Word) : BitVec 24 := w.extractLsb' 8 24

/-- The reserved bits of formats P and T, w[31:18] (R122, R123). -/
def reservedPT (w : Word) : BitVec 14 := w.extractLsb' 18 14

/-- Format M's reserved bits, w[31:11] (R124). -/
def reservedM (w : Word) : BitVec 21 := w.extractLsb' 11 21

/-! ## The decoder -/

/-- Why a word is ILLEGAL (R128). Executing it raises E_CMD, whichever it is. -/
inductive DecodeError where
  /-- OPC is 0x0A to 0xFF. -/
  | reservedOpcode
  /-- A reserved bit of the word's format is 1. -/
  | reservedBits
  /-- CH = 3 in format P. -/
  | channel3
  /-- ST = 3 in format T. -/
  | state3
  deriving DecidableEq, Repr

/-- Format N: no operands. -/
def decodeN (i : Instr) (w : Word) : Except DecodeError Instr :=
  if reservedN w ≠ 0 then .error .reservedBits else .ok i

/-- Format P: a pixel on a channel. -/
def decodeP (mk : BitVec 2 → Byte → Instr) (w : Word) : Except DecodeError Instr :=
  if reservedPT w ≠ 0 then .error .reservedBits
  else if chOf w = 3 then .error .channel3
  else .ok (mk (chOf w) (pixOf w))

/-- Format M: a channel mask. -/
def decodeM (w : Word) : Except DecodeError Instr :=
  if reservedM w ≠ 0 then .error .reservedBits else .ok (.balrst (maskOf w))

/-- Format T: a table entry. -/
def decodeT (w : Word) : Except DecodeError Instr :=
  if reservedPT w ≠ 0 then .error .reservedBits
  else if chOf w = 3 then .error .state3
  else .ok (.lutrd (chOf w) (pixOf w))

/-- R129: every one of the 2^32 words decodes to a command or is ILLEGAL by name. -/
def decode (w : Word) : Except DecodeError Instr :=
  match (opcOf w).toNat with
  | 0x00 => decodeN .nop w
  | 0x01 => decodeP .enc w
  | 0x02 => decodeP .fenc w
  | 0x03 => decodeM w
  | 0x04 => decodeT w
  | 0x05 => .ok (.blkrd (xOf w) (yOf w))
  | 0x06 => decodeN .compose w
  | 0x07 => decodeN .fetch w
  | 0x08 => decodeN .clrerr w
  | 0x09 => decodeN .srst w
  | _ => .error .reservedOpcode

/-- The command my decoder reads from an instruction of the opcode table whose bits are `w`: the TPE takes a command as one
32-bit word (R120), so the bits above `nbits` are 0 and there are no later words. -/
def decodeTableWord (nbits w : Nat) : Option Instr :=
  match decode (BitVec.ofNat 32 (w % 2 ^ nbits)) with
  | .ok i => some i
  | .error _ => none

/-! ## The encoder -/

/-- Format N (R121). -/
def encodeN (opc : BitVec 8) : Word := (0 : BitVec 24) ++ opc

/-- Formats P and T (R122, R123): `opc | f<<8 | pix<<10`. -/
def encodePT (opc : BitVec 8) (f : BitVec 2) (pix : Byte) : Word := (0 : BitVec 14) ++ pix ++ f ++ opc

/-- Format M (R124): `opc | mask<<8`. -/
def encodeM (opc : BitVec 8) (mask : BitVec 3) : Word := (0 : BitVec 21) ++ mask ++ opc

/-- Format X (R125): `opc | x<<8 | y<<20`. -/
def encodeX (opc : BitVec 8) (x y : BitVec 12) : Word := y ++ x ++ opc

/-- The word a command assembles to (R131). -/
def encode : Instr → Word
  | .nop => encodeN 0x00
  | .enc ch pix => encodePT 0x01 ch pix
  | .fenc ch pix => encodePT 0x02 ch pix
  | .balrst mask => encodeM 0x03 mask
  | .lutrd st pix => encodePT 0x04 st pix
  | .blkrd x y => encodeX 0x05 x y
  | .compose => encodeN 0x06
  | .fetch => encodeN 0x07
  | .clrerr => encodeN 0x08
  | .srst => encodeN 0x09

end Sys2Proof
end

