-- ==== Sys2Proof/Config.lean ====
section
/-! DEFINITION. What is fixed when a TPE is built (spec 00_scope R7 to R9, 70_reset R426), and the free values. -/

namespace Sys2Proof

/-! ## Free values (93_implementation_defined U3, U6)

Neither constant has a body, so nothing can be proved about a value of it.
The machine applies each to `State.draws`, which every draw advances. -/

/-- The `n`-th draw of an unwritten IMG cell: any value in 0..255 (R83). -/
opaque Config.freeByte : Nat → Byte

/-- The `n`-th draw of a read while BUSY = 1: any 32-bit word (R96). -/
opaque Config.freeWord : Nat → Word

/-! ## Video modes -/

/-- A geometry record of P_MODES (R8): totals and porches, all non-negative integers (R242). -/
structure Geometry where
  hTotal : Nat
  vTotal : Nat
  hFrontPorch : Nat
  vFrontPorch : Nat
  hBackPorch : Nat
  vBackPorch : Nat
  deriving DecidableEq, Repr

/-- The five keys of P_MODES, which the source fixes (R240). -/
inductive VideoMode where
  | m640x480
  | m800x600
  | m1280x720
  | m1600x900
  | m1920x1080
  deriving DecidableEq, Repr

/-- The active width of a key (R240). -/
def VideoMode.hActive : VideoMode → Nat
  | .m640x480 => 640
  | .m800x600 => 800
  | .m1280x720 => 1280
  | .m1600x900 => 1600
  | .m1920x1080 => 1920

/-- The active height of a key (R240). -/
def VideoMode.vActive : VideoMode → Nat
  | .m640x480 => 480
  | .m800x600 => 600
  | .m1280x720 => 720
  | .m1600x900 => 900
  | .m1920x1080 => 1080

/-- All five keys (R240). -/
def VideoMode.keys : List VideoMode := [.m640x480, .m800x600, .m1280x720, .m1600x900, .m1920x1080]

/-- The key of an image size, width by height, if it is one (R240, R243). -/
def VideoMode.ofSize? (w h : Nat) : Option VideoMode :=
  VideoMode.keys.find? fun m => m.hActive == w && m.vActive == h

/-- P_MODES (R8): one geometry record for each of the five keys. -/
structure ModeTable where
  g640x480 : Geometry
  g800x600 : Geometry
  g1280x720 : Geometry
  g1600x900 : Geometry
  g1920x1080 : Geometry
  deriving DecidableEq, Repr

/-- The geometry record of a key. -/
def ModeTable.get (t : ModeTable) : VideoMode → Geometry
  | .m640x480 => t.g640x480
  | .m800x600 => t.g800x600
  | .m1280x720 => t.g1280x720
  | .m1600x900 => t.g1600x900
  | .m1920x1080 => t.g1920x1080

/-- The default P_MODES of R241 (PRESUMED: general knowledge G1, but for 800 and 525). -/
def ModeTable.default : ModeTable where
  g640x480 := ⟨800, 525, 16, 10, 48, 33⟩
  g800x600 := ⟨1056, 628, 40, 1, 88, 23⟩
  g1280x720 := ⟨1650, 750, 110, 5, 220, 20⟩
  g1600x900 := ⟨1800, 1000, 24, 1, 96, 96⟩
  g1920x1080 := ⟨2200, 1125, 88, 4, 148, 36⟩

/-! ## Platform parameters -/

/-- The parameters the TPE is built with (R7, R8, R9). -/
structure Params where
  modes : ModeTable
  maxW : Nat
  maxH : Nat
  syncCh : Fin 3
  deriving DecidableEq, Repr

/-- R242 for one key: the active window fits between the porches, and the frame fits in FB. -/
def Params.modeWf (p : Params) (m : VideoMode) : Bool :=
  let g := p.modes.get m
  decide (g.hFrontPorch + m.hActive + g.hBackPorch ≤ g.hTotal) &&
  decide (g.vFrontPorch + m.vActive + g.vBackPorch ≤ g.vTotal) &&
  decide (g.hTotal ≤ p.maxW) && decide (g.vTotal ≤ p.maxH)

/-- The one total the source fixes: 640 x 480 has 800 x 525 (R8, U15). Every other total and every porch is a parameter. -/
def ModeTable.sourceTotal (t : ModeTable) : Bool :=
  decide ((t.get .m640x480).hTotal = 800) && decide ((t.get .m640x480).vTotal = 525)

/-- Well-formed parameters: R242 for every key, MAX_W and MAX_H fit the 12-bit fields (R9), and P_MODES has the total the
source fixes (R8). -/
def Params.wf (p : Params) : Bool :=
  VideoMode.keys.all p.modeWf && decide (p.maxW ≤ 4095) && decide (p.maxH ≤ 4095) && p.modes.sourceTotal

/-- The defaults of R9 and R241. `syncCh` has no default in the spec (R7): 0 is a DESIGN CHOICE, the value 95_test_vectors
assumes; no statement rests on it. -/
def Params.default : Params where
  modes := .default
  maxW := 2200
  maxH := 1125
  syncCh := 0

/-- The platform of one TPE: parameters together with their well-formedness (R8, R426, U17: an ill-formed P_MODES is refused,
here by having no platform). -/
structure Platform where
  params : Params
  ok : params.wf = true
  deriving DecidableEq, Repr

/-- The platform of `State.reset`. -/
def Platform.default : Platform := ⟨.default, by decide⟩

end Sys2Proof
end

