-- ==== Sys2Proof/Machine/State.lean ====
section
/-! DEFINITION. The state of the TPE as plain data (spec 10_state), what a turn of the machine is (20_memory R93), the state
after reset (R55), and the named faults and refusals. -/

namespace Sys2Proof.Machine

/-! ## Errors, turns, outputs -/

/-- The error codes of R381 that a command or a host write raises. -/
inductive ErrCode where
  /-- E_CMD: an illegal command word, CH = 3 or ST = 3 (R128). -/
  | cmd
  /-- E_SHAPE: COMPOSE of a malformed image shape (R281). -/
  | shape
  /-- E_RES: the image size is no P_MODES key where geometry is needed (R285, R251). -/
  | res
  /-- E_EMPTY: FETCH with no frame held (R321). -/
  | empty
  /-- E_RANGE: BLKRD outside the total frame (R251). -/
  | range
  /-- E_BUSY: a host write while BUSY = 1 (R388). -/
  | busy
  deriving DecidableEq, Repr

/-- One turn in the total order of R93. The host's accesses are inputs of the machine; `bytes` is the access width. -/
inductive Turn where
  /-- `MemRead(addr, bytes)` (R80). -/
  | read (addr : Word) (bytes : Nat)
  /-- `MemWrite(addr, bytes, v)` (R80). -/
  | write (addr : Word) (bytes : Nat) (v : Word)
  /-- The engine takes its step, if it has one (R33). -/
  | engine
  /-- A rising edge of `clk` at which the input `rst` has this level (R420). -/
  | rst (level : Bool)
  deriving DecidableEq, Repr

/-- One outcome of a FETCH, as R330 lists them. -/
inductive LineOutcome where
  /-- `Line(r, [LB[x][c] for x < FB_W, c < 3])` -/
  | line (row : BitVec 12) (cells : List (Tri Sym))
  /-- `EndOfStream` (R324) -/
  | endOfStream
  deriving DecidableEq, Repr

/-! ## Memories -/

/-- IMG (R48): the written cells, as (index, byte) pairs, the indices strictly rising. An index that is not listed is
unwritten and holds no value. -/
abbrev Memory := List Host.Cell

/-- One row of symbols, column 0 first. A column beyond the list has never been written. -/
abbrev SymRow := List (Tri Sym)

/-! ## The state -/

/-- The state of the machine. 10_state's registers and memories first, then the input `rst`, then the model's own fields. -/
structure State where
  /-- BUSY: a command is pending or executing (R33, R35). -/
  busy : Bool
  /-- PENDING: the accepted command word (R33, R46). -/
  pending : Word
  /-- ERR (R35, R45). -/
  err : Bool
  /-- ERRCODE (R35, R381). -/
  errCode : BitVec 4
  /-- EOS (R35, R324). -/
  eos : Bool
  /-- LINE_VALID (R35, R323). -/
  lineValid : Bool
  /-- CTRL[2:0] (R36): MODE in bits 1:0, BLANK_EN in bit 2. -/
  ctrl : BitVec 3
  /-- IMG_W (R37). -/
  imgW : BitVec 12
  /-- IMG_H (R37). -/
  imgH : BitVec 12
  /-- IMG_C (R38). -/
  imgC : BitVec 3
  /-- RES_CODE (R39). -/
  resCode : Sym
  /-- RES_DELTA (R39): `sext_32` of the delta. -/
  resDelta : Word
  /-- BAL0, BAL1, BAL2 (R40): 8-bit two's complement. -/
  bal : Tri (BitVec 8)
  /-- FB_W (R41). -/
  fbW : BitVec 12
  /-- FB_H (R41). -/
  fbH : BitVec 12
  /-- CUR (R44): the row the next FETCH serves. -/
  cur : BitVec 12
  /-- LINE_LEN (R42). -/
  lineLen : BitVec 12
  /-- LINE_NO (R42). -/
  lineNo : BitVec 12
  /-- IMG (R48). -/
  img : Memory
  /-- FB (R49): row y is entry y, column x of it entry x; cells beyond the lists have never been written. -/
  fb : List SymRow
  /-- LB (R50). -/
  lb : SymRow
  /-- The level of the input `rst` at the last clock edge (R420). -/
  rst : Bool
  /-- The parameters the TPE is built with (R426); no step changes them. -/
  platform : Platform
  /-- The model's own: the turns to come, in the total order of R93. -/
  schedule : List Turn
  /-- The model's own: the word the last completed host read returned (R80). -/
  rdata : Word
  /-- The model's own: how many free values have been drawn. -/
  draws : Nat
  /-- The model's own: every raise of R385 and every E_BUSY, newest first, never cleared (R393). -/
  errLog : List ErrCode
  /-- The model's own: the FETCH outcomes, newest first (R330). -/
  lines : List LineOutcome
  deriving DecidableEq, Repr

/-- The state right after hardware reset (R55, R420): `rst` released, the engine idle, no cell written.
`pending` is unspecified in R55 (DESIGN CHOICE 0); `platform` and the model's own fields are named in the log. -/
def State.reset : State where
  busy := false
  pending := 0
  err := false
  errCode := 0
  eos := false
  lineValid := false
  ctrl := 0
  imgW := 0
  imgH := 0
  imgC := 0
  resCode := 0
  resDelta := 0
  bal := ⟨0, 0, 0⟩
  fbW := 0
  fbH := 0
  cur := 0
  lineLen := 0
  lineNo := 0
  img := []
  fb := []
  lb := []
  rst := false
  platform := .default
  schedule := []
  rdata := 0
  draws := 0
  errLog := []
  lines := []

/-! ## Stops -/

/-- Why an access is a bus error (R86). -/
inductive BusError where
  /-- The access is not 32 bits wide (R80). -/
  | width
  /-- The address is no multiple of 4 (R80). -/
  | unaligned
  /-- A register offset in 0x000 to 0x0FF that no rule assigns (R43). -/
  | reservedOffset
  /-- No register and no element of a window lies at the address (R82 to R85). -/
  | unmapped
  /-- A write to the FB or the LB window (R84, R85). -/
  | readOnlyWindow
  deriving DecidableEq, Repr

/-- Where the machine stops. -/
inductive Fault where
  /-- Raised by `hostRead` and `hostWrite`: a bus-errored access faults the host program at that access (R392). Safe: the
  TPE's state is unchanged, and the model says nothing of what the host does next. -/
  | busError (cause : BusError)
  /-- Raised by `execCompose`: COMPOSE reads an IMG cell that was never written (R48, R282). Safe: the hardware reads an
  unspecified value and goes on. -/
  | unwrittenImage
  /-- Raised by `execFetch` and `hostRead`: a cell of the frame held that no COMPOSE wrote. Safe: no state that meets
  `State.Inv` raises it, since COMPOSE writes every cell of the rectangle it sets (R49). -/
  | unwrittenFrame
  /-- Raised by `hostRead`: a cell of the line held that no FETCH wrote. Safe: no state that meets `State.Inv` raises it,
  since FETCH writes every cell of the line it sets (R50). -/
  | unwrittenLine
  deriving DecidableEq, Repr

/-- What the model gives no meaning. -/
inductive Refusal where
  /-- An instruction with no meaning yet; no arm of `exec` answers it. Safe. -/
  | notModelled (mnemonic : String)
  /-- Raised by `takeTurn`: a host access while `rst` is asserted (R421: a model refuses it). Safe. -/
  | accessDuringReset
  deriving DecidableEq, Repr

end Sys2Proof.Machine
end

