-- ==== Sys2Proof/Machine/Operands.lean ====
section
/-! DEFINITION. The operand forms of the commands (spec 30_encoding R126) and the signed-integer forms of R16. -/

namespace Sys2Proof.Machine

/-- CH, and ST, as an index: 0, 1 or 2; the value 3 is reserved (R122, R123). -/
def index3? (f : BitVec 2) : Option (Fin 3) :=
  match f.toNat with
  | 0 => some 0
  | 1 => some 1
  | 2 => some 2
  | _ => none

/-- MASK[c] (R124): bit c selects channel c. -/
def maskBit (mask : BitVec 3) (c : Fin 3) : Bool := mask.getLsbD c.val

/-- The state index `sign(balance) + 1` (R200): 0 negative, 1 zero, 2 positive. -/
def stateIndex (balance : Int) : Fin 3 :=
  if balance < 0 then 0 else if balance = 0 then 1 else 2

/-- The balance a column of the table is built at, `s - 1` (R201). -/
def columnBalance (s : Fin 3) : Int := (s.val : Int) - 1

/-- `sext_32` of a signed integer (R16). -/
def sext32 (v : Int) : Word := BitVec.ofInt 32 v

/-- `zext_32` of a field or an element (R16). -/
def zext32 {n : Nat} (v : BitVec n) : Word := v.setWidth 32

/-- The signed integer an 8-bit balance or delta encodes (R10, R11, R16). -/
def signed8 (v : BitVec 8) : Int := v.toInt

/-- The 8-bit two's-complement encoding of a signed integer (R10, R11, R16). -/
def enc8 (v : Int) : BitVec 8 := BitVec.ofInt 8 v

/-- A size or a coordinate held in a 12-bit field (R37, R41, R44). -/
def field12 (v : Nat) : BitVec 12 := BitVec.ofNat 12 v

end Sys2Proof.Machine
end

