-- ==== Sys2Proof/Machine/Flags.lean ====
section
/-! DEFINITION. The flags: the fields of CTRL (spec 10_state R36), the geometry lookup (42_blanking R243) behind MODE_HIT and
the G_* registers (R47), and the STATUS word (R35). -/

namespace Sys2Proof.Machine

/-- CTRL.MODE[0]: 1 selects passthrough, 0 TMDS-coded (R36). -/
def passthrough (s : State) : Bool := s.ctrl.getLsbD 0

/-- CTRL.MODE[1]: 1 selects one-shot, 0 loop-forever (R36). -/
def oneShot (s : State) : Bool := s.ctrl.getLsbD 1

/-- CTRL.BLANK_EN (R36). -/
def blankEn (s : State) : Bool := s.ctrl.getLsbD 2

/-- GEOM(w, h) on a platform: P_MODES[(w, h)], or NONE (R243). -/
def geomOf (p : Params) (w h : Nat) : Option Geometry := (VideoMode.ofSize? w h).map p.modes.get

/-- GEOM(IMG_W, IMG_H) (R243). -/
def geom (s : State) : Option Geometry := geomOf s.platform.params s.imgW.toNat s.imgH.toNat

/-- STATUS.MODE_HIT: (IMG_W, IMG_H) is a key of P_MODES (R35). -/
def modeHit (s : State) : Bool := (geom s).isSome

/-- A G_* readback register: a field of GEOM(IMG_W, IMG_H), 0 when there is none (R47). -/
def geomField (f : Geometry → Nat) (s : State) : Word :=
  match geom s with
  | some g => zext32 (field12 (f g))
  | none => 0

/-- STATUS (R35): bits 0 BUSY, 1 ERR, 2 EOS, 3 LINE_VALID, 11:8 ERRCODE, 16 MODE_HIT; the others read 0. -/
def statusWord (s : State) : Word :=
  (0 : BitVec 15) ++ BitVec.ofBool (modeHit s) ++ (0 : BitVec 4) ++ s.errCode ++ (0 : BitVec 4) ++
    BitVec.ofBool s.lineValid ++ BitVec.ofBool s.eos ++ BitVec.ofBool s.err ++ BitVec.ofBool s.busy

/-- The code of an error (R381). -/
def errNumber : ErrCode → BitVec 4
  | .cmd => 1
  | .shape => 2
  | .res => 3
  | .empty => 4
  | .range => 5
  | .busy => 6

end Sys2Proof.Machine
end

