-- ==== Sys2Proof/Machine/Ops.lean ====
section
/-! DEFINITION. The named operations over memories and registers: IMG cells (spec 10_state R48), FB and LB cells (R49, R50),
raising an error and clearing it (60_exceptions R385, R388, R390), hardware reset (70_reset R420) and soft reset (R355). -/

namespace Sys2Proof.Machine

/-- What a command or a turn answers. -/
abbrev Result := Host.Outcome State Fault Refusal

/-! ## IMG -/

/-- The canonical form of IMG: the indices of the written cells strictly rise. -/
def Memory.wf : Memory → Bool
  | [] => true
  | [_] => true
  | a :: b :: m => decide (a.1 < b.1) && Memory.wf (b :: m)

/-- The byte IMG holds at an index; none when the cell is unwritten (R48). -/
def Memory.read? (m : Memory) (i : Nat) : Option Byte :=
  match m with
  | [] => none
  | (j, b) :: m => if i = j then some b else Memory.read? m i

/-- IMG with one cell written (R83). -/
def Memory.write (m : Memory) (i : Nat) (b : Byte) : Memory :=
  match m with
  | [] => [(i, b)]
  | (j, c) :: m =>
    if i < j then (i, b) :: (j, c) :: m
    else if i = j then (i, b) :: m
    else (j, c) :: Memory.write m i b

/-- IMG_CAP = MAX_W x MAX_H x 3 (R48). -/
def imgCap (s : State) : Nat := s.platform.params.maxW * s.platform.params.maxH * 3

/-- IMG[i] <- b (R83). -/
def imgWrite (i : Nat) (b : Byte) (s : State) : State := { s with img := Memory.write s.img i b }

/-! ## The engine's handshake -/

/-- PENDING <- w; BUSY <- 1 (R33). -/
def accept (w : Word) (s : State) : State := { s with pending := w, busy := true }

/-- BUSY <- 0 (R33, R385). -/
def idle (s : State) : State := { s with busy := false }

/-! ## FB and LB -/

/-- The row with the cells of `new` written from column `off` on. -/
def overwriteAt {α : Type} (off : Nat) (new old : List α) : List α :=
  old.take off ++ new ++ old.drop (off + new.length)

/-- FB with the cells of `new` written, row 0 and column 0 first; a cell outside `new` keeps its old value (R280). -/
def storeFrame : List SymRow → List SymRow → List SymRow
  | [], old => old
  | r :: rs, [] => r :: storeFrame rs []
  | r :: rs, o :: os => overwriteAt 0 r o :: storeFrame rs os

/-- FB[y][x][c]; none when no COMPOSE has written the cell (R49). -/
def fbCell? (s : State) (y x : Nat) (c : Fin 3) : Option Sym :=
  match s.fb[y]? with
  | none => none
  | some row => (row[x]?).map (·.get c)

/-- LB[x][c]; none when no FETCH has written the cell (R50). -/
def lbCell? (s : State) (x : Nat) (c : Fin 3) : Option Sym := (s.lb[x]?).map (·.get c)

/-- Row r of the frame held: FB[r][x] for x < FB_W; none when a cell of it was never written. -/
def fbRow? (s : State) (r : Nat) : Option SymRow :=
  match s.fb[r]? with
  | none => none
  | some row => if s.fbW.toNat ≤ row.length then some (row.take s.fbW.toNat) else none

/-! ## Results and balances -/

/-- RES_CODE <- zext_32(code) and RES_DELTA <- sext_32(delta) (R39). -/
def setResult (code : Sym) (delta : Int) (s : State) : State := { s with resCode := code, resDelta := sext32 delta }

/-- BAL[c] <- v (R40). -/
def setBal (c : Fin 3) (v : BitVec 8) (s : State) : State := { s with bal := s.bal.set c v }

/-! ## Errors -/

/-- The recording rule of R385, and the event history of R393: the first code since the last clear is kept. -/
def recordError (e : ErrCode) (s : State) : State :=
  { s with
    err := true
    errCode := if s.err then s.errCode else errNumber e
    errLog := e :: s.errLog }

/-- A command raises an error (R385): nothing else of the command happens, and the engine is idle. The TPE has no trap entry
(R389): this is its whole exception entry, and the only one. -/
def raise (e : ErrCode) (s : State) : State := idle (recordError e s)

/-- A recorded error is cleared (R353, R390): the whole return from an error, since nothing was saved. -/
def clearError (s : State) : State := { s with err := false, errCode := 0 }

/-! ## Resets -/

/-- Every register and state bit takes its value of R55; the memories, the input and the model's own fields stay. -/
def resetRegisters (s : State) : State :=
  { State.reset with
    img := s.img
    fb := s.fb
    lb := s.lb
    rst := s.rst
    platform := s.platform
    schedule := s.schedule
    rdata := s.rdata
    draws := s.draws
    errLog := s.errLog
    lines := s.lines }

/-- A rising clock edge with `rst` asserted (R420): registers as R55, a pending command abandoned, every IMG cell unwritten,
FB and LB unspecified. -/
def hardReset (s : State) : State := { resetRegisters s with img := [], fb := [], lb := [], rst := true }

end Sys2Proof.Machine
end

