-- ==== Sys2Proof/Machine/Bus.lean ====
section
/-! DEFINITION. The host bus (spec 20_memory): the address map (R82, 10_state R34 to R47), register reads and writes, the CMD
write (10_state R33), the windows (R83 to R85), bus errors (R86), and accesses while BUSY = 1 (R96). -/

namespace Sys2Proof.Machine

/-! ## The address map -/

/-- The registers of 10_state section 2. -/
inductive Reg where
  | cmd
  | status
  | ctrl
  | imgW
  | imgH
  | imgC
  | resCode
  | resDelta
  /-- BAL0, BAL1, BAL2 -/
  | bal (c : Fin 3)
  | fbW
  | fbH
  | cur
  | lineLen
  | lineNo
  | gHTotal
  | gVTotal
  | gHfp
  | gVfp
  | gHbp
  | gVbp
  deriving DecidableEq, Repr

/-- The register at a byte offset (R34 to R47); none at a reserved offset (R43). -/
def regAt? (offset : Nat) : Option Reg :=
  match offset with
  | 0x000 => some .cmd
  | 0x004 => some .status
  | 0x008 => some .ctrl
  | 0x00C => some .imgW
  | 0x010 => some .imgH
  | 0x014 => some .imgC
  | 0x018 => some .resCode
  | 0x01C => some .resDelta
  | 0x020 => some (.bal 0)
  | 0x024 => some (.bal 1)
  | 0x028 => some (.bal 2)
  | 0x02C => some .fbW
  | 0x030 => some .fbH
  | 0x034 => some .cur
  | 0x038 => some .lineLen
  | 0x03C => some .lineNo
  | 0x040 => some .gHTotal
  | 0x044 => some .gVTotal
  | 0x048 => some .gHfp
  | 0x04C => some .gVfp
  | 0x050 => some .gHbp
  | 0x054 => some .gVbp
  | _ => none

/-- What an access reaches: a register, or element `i` of a window. -/
inductive Location where
  | reg (r : Reg)
  | img (i : Nat)
  | fb (i : Nat)
  | lb (i : Nat)
  deriving DecidableEq, Repr

/-- First address of the IMG window (R82). -/
def imgBase : Nat := 0x10000000

/-- First address of the FB window (R82). -/
def fbBase : Nat := 0x20000000

/-- First address of the LB window (R82). -/
def lbBase : Nat := 0x30000000

/-- The number of elements the FB window holds: FB_W x FB_H x 3 (R84). -/
def fbCount (s : State) : Nat := s.fbW.toNat * s.fbH.toNat * 3

/-- The number of elements the LB window holds: LINE_LEN x 3 while LINE_VALID = 1, else none (R85). -/
def lbCount (s : State) : Nat := if s.lineValid then s.lineLen.toNat * 3 else 0

/-- Element `i` of a window of `count` elements, or an unmapped address. -/
def windowAt (count i : Nat) (mk : Nat → Location) : Except BusError Location :=
  if i < count then .ok (mk i) else .error .unmapped

/-- R82: what lies at a word-aligned byte address. -/
def wordAt (s : State) (a : Nat) : Except BusError Location :=
  if a < 0x100 then
    match regAt? a with
    | some r => .ok (.reg r)
    | none => .error .reservedOffset
  else if a < imgBase then .error .unmapped
  else if a < fbBase then windowAt (imgCap s) ((a - imgBase) / 4) .img
  else if a < lbBase then windowAt (fbCount s) ((a - fbBase) / 4) .fb
  else windowAt (lbCount s) ((a - lbBase) / 4) .lb

/-- R80, R86: the location of an access of `bytes` bytes, or its bus error. -/
def locate (s : State) (addr : Word) (bytes : Nat) : Except BusError Location :=
  if bytes ≠ 4 then .error .width
  else if addr.toNat % 4 ≠ 0 then .error .unaligned
  else wordAt s addr.toNat

/-! ## Registers -/

/-- What a read of a register returns while BUSY = 0 (R34 to R47). -/
def regRead (s : State) : Reg → Word
  | .cmd => 0
  | .status => statusWord s
  | .ctrl => zext32 s.ctrl
  | .imgW => zext32 s.imgW
  | .imgH => zext32 s.imgH
  | .imgC => zext32 s.imgC
  | .resCode => zext32 s.resCode
  | .resDelta => s.resDelta
  | .bal c => sext32 (signed8 (s.bal.get c))
  | .fbW => zext32 s.fbW
  | .fbH => zext32 s.fbH
  | .cur => zext32 s.cur
  | .lineLen => zext32 s.lineLen
  | .lineNo => zext32 s.lineNo
  | .gHTotal => geomField Geometry.hTotal s
  | .gVTotal => geomField Geometry.vTotal s
  | .gHfp => geomField Geometry.hFrontPorch s
  | .gVfp => geomField Geometry.vFrontPorch s
  | .gHbp => geomField Geometry.hBackPorch s
  | .gVbp => geomField Geometry.vBackPorch s

/-- The CMD write (R33) while BUSY = 0: with an error recorded only the opcodes of CLRERR and SRST are accepted (R386). -/
def cmdWrite (w : Word) (s : State) : State :=
  let opc := w.extractLsb' 0 8
  if s.err && opc != 0x08 && opc != 0x09 then s
  else accept w s

/-- A write of a register while BUSY = 0 (R34 to R47): reserved bits and read-only registers ignore it. -/
def regWrite (r : Reg) (v : Word) (s : State) : State :=
  match r with
  | .cmd => cmdWrite v s
  | .ctrl => { s with ctrl := v.extractLsb' 0 3 }
  | .imgW => { s with imgW := v.extractLsb' 0 12 }
  | .imgH => { s with imgH := v.extractLsb' 0 12 }
  | .imgC => { s with imgC := v.extractLsb' 0 3 }
  | .bal c => setBal c (v.extractLsb' 0 8) s
  | .status => s
  | .resCode => s
  | .resDelta => s
  | .fbW => s
  | .fbH => s
  | .cur => s
  | .lineLen => s
  | .lineNo => s
  | .gHTotal => s
  | .gVTotal => s
  | .gHfp => s
  | .gVfp => s
  | .gHbp => s
  | .gVbp => s

/-! ## Reads -/

/-- The bus answers a read with `w`. -/
def answer (w : Word) (s : State) : State := { s with rdata := w }

/-- The bus answers a read with the next free value (R83, R96). -/
def answerDraw (free : Nat → Word) (s : State) : State := { s with rdata := free s.draws, draws := s.draws + 1 }

/-- Element i of the FB window (R84): `i = (y x FB_W + x) x 3 + c`. -/
def fbElem? (s : State) (i : Nat) : Option Sym :=
  let pos := i / 3
  fbCell? s (pos / s.fbW.toNat) (pos % s.fbW.toNat) (Fin.ofNat 3 i)

/-- Element i of the LB window (R85): `i = 3x + c`. -/
def lbElem? (s : State) (i : Nat) : Option Sym := lbCell? s (i / 3) (Fin.ofNat 3 i)

/-- A read of a location while BUSY = 0. -/
def readIdle (l : Location) (s : State) : Result :=
  match l with
  | .reg r => .next (answer (regRead s r) s)
  | .img i =>
    match Memory.read? s.img i with
    | some b => .next (answer (zext32 b) s)
    | none => .next (answerDraw (fun n => zext32 (Config.freeByte n)) s)
  | .fb i =>
    match fbElem? s i with
    | some v => .next (answer (zext32 v) s)
    | none => .fault .unwrittenFrame
  | .lb i =>
    match lbElem? s i with
    | some v => .next (answer (zext32 v) s)
    | none => .fault .unwrittenLine

/-- A read of a location while BUSY = 1 (R96): STATUS and CMD as ever, everything else a draw. -/
def readBusy (l : Location) (s : State) : State :=
  match l with
  | .reg .status => answer (statusWord s) s
  | .reg .cmd => answer 0 s
  | _ => answerDraw Config.freeWord s

/-- `MemRead(addr, bytes)` (R80, R83 to R86, R96). -/
def hostRead (addr : Word) (bytes : Nat) (s : State) : Result :=
  match locate s addr bytes with
  | .error e => .fault (.busError e)
  | .ok l => if s.busy then .next (readBusy l s) else readIdle l s

/-! ## Writes -/

/-- A write of a location of the host's while BUSY = 0. -/
def writeIdle (l : Location) (v : Word) (s : State) : Result :=
  match l with
  | .reg r => .next (regWrite r v s)
  | .img i => .next (imgWrite i (v.extractLsb' 0 8) s)
  | .fb _ => .fault (.busError .readOnlyWindow)
  | .lb _ => .fault (.busError .readOnlyWindow)

/-- A write of a location of the host's while BUSY = 1 (R96, R388): dropped, and E_BUSY. A read-only window is a bus error
before that (R86). -/
def writeBusy (l : Location) (s : State) : Result :=
  match l with
  | .reg _ => .next (recordError .busy s)
  | .img _ => .next (recordError .busy s)
  | .fb _ => .fault (.busError .readOnlyWindow)
  | .lb _ => .fault (.busError .readOnlyWindow)

/-- `MemWrite(addr, bytes, v)` (R80, R83 to R86, R96). -/
def hostWrite (addr : Word) (bytes : Nat) (v : Word) (s : State) : Result :=
  match locate s addr bytes with
  | .error e => .fault (.busError e)
  | .ok l => if s.busy then writeBusy l s else writeIdle l v s

end Sys2Proof.Machine
end

