-- ==== Sys2Proof/Machine/Control.lean ====
section
/-! DEFINITION. The control commands (spec 45_control): NOP (R350), BALRST (R351), CLRERR (R353), SRST (R355). -/

namespace Sys2Proof.Machine

/-- NOP (R350): nothing. -/
def execNop (s : State) : Result := .next s

/-- BALRST (R351): BAL[c] <- 0 for every c with MASK[c] = 1. -/
def execBalrst (mask : BitVec 3) (s : State) : Result :=
  .next { s with bal := Tri.ofFn fun c => if maskBit mask c then 0 else s.bal.get c }

/-- CLRERR (R353): ERR <- 0 and ERRCODE <- 0. -/
def execClrerr (s : State) : Result := .next (clearError s)

/-- SRST (R355): every register and state bit as R55; the contents of IMG, FB and LB stay. -/
def execSrst (s : State) : Result := .next (resetRegisters s)

end Sys2Proof.Machine
end

