-- ==== Sys2Proof/Machine/Blanking.lean ====
section
/-! DEFINITION. The blanking-control sequencer (spec 42_blanking R245 to R249) and BLKRD (R251). -/

namespace Sys2Proof.Machine

/-! ## The control codes and fills (R245, R287), as the source writes them -/

/-- CODE_CORNER, and the idle fill of the two channels without blanking pattern. -/
def codeCorner : Sym := 0b1101010100

/-- CODE_TB. -/
def codeTopBottom : Sym := 0b0010101011

/-- CODE_LR. -/
def codeLeftRight : Sym := 0b0101010100

/-- CODE_CENTER. -/
def codeCenter : Sym := 0b1010101011

/-- The non-blanking fill. -/
def codeFill : Sym := 0b0011111111

/-! ## Geometry (R246, R247, R249) -/

/-- A band of one axis (R246). -/
inductive Band where
  | outer
  | mid
  deriving DecidableEq, Repr

/-- The band of position `p` on an axis of total `t`, front porch `fp` and back porch `bp` (R246): `p >= T - BP` is written
`T <= p + BP`, which is the same over the integers. -/
def band (p t fp bp : Nat) : Band := if p < fp ∨ t ≤ p + bp then .outer else .mid

/-- BLANKCODE(g, x, y) (R247). -/
def blankCode (g : Geometry) (x y : Nat) : Sym :=
  match band y g.vTotal g.vFrontPorch g.vBackPorch, band x g.hTotal g.hFrontPorch g.hBackPorch with
  | .outer, .outer => codeCorner
  | .outer, .mid => codeTopBottom
  | .mid, .outer => codeLeftRight
  | .mid, .mid => codeCenter

/-- BUILDBLANKING(g) (R249): the pattern, row by row. -/
def buildBlanking (g : Geometry) : List (List Sym) :=
  (List.range g.vTotal).map fun y => (List.range g.hTotal).map fun x => blankCode g x y

/-- BLKRD (R251). E_RES is checked before E_RANGE (R387). -/
def execBlkrd (x y : BitVec 12) (s : State) : Result :=
  match geom s with
  | none => .next (raise .res s)
  | some g =>
    if x.toNat ≥ g.hTotal ∨ y.toNat ≥ g.vTotal then .next (raise .range s)
    else .next (setResult (blankCode g x.toNat y.toNat) 0 s)

end Sys2Proof.Machine
end

