-- ==== Sys2Proof/Machine/Coder.lean ====
section
/-! DEFINITION. The bit utilities and the bit-balancing coder TMDSCODE (spec 40_coder R160 to R168), and ENC (R180). -/

namespace Sys2Proof.Machine

/-! ## Bit sequences (R14, R15, R160, R161): LSB first -/

/-- `toBits(value, n)` (R160). -/
def toBits {n : Nat} (v : BitVec n) : List Bool := (List.range n).map v.getLsbD

/-- `fromBits(bits)` (R161). -/
def fromBits : List Bool → Nat
  | [] => 0
  | b :: bs => b.toNat + 2 * fromBits bs

/-- The number of 1 elements (R15). -/
def popcount (bs : List Bool) : Nat := bs.count true

/-- `NOT`, element by element (R15). -/
def notBits (bs : List Bool) : List Bool := bs.map (!·)

/-! ## Steps 1 and 2: minimum transition (R164) -/

/-- The mode choice of R164: true is "inverted/XNOR" mode. -/
def xnorMode (pixel : Byte) : Bool :=
  decide (popcount (toBits pixel) > 4) || (popcount (toBits pixel) == 4 && !pixel.getLsbD 0)

/-- The loop of R164 from q[k-1] = `prev` on: each q[k] uses the q[k-1] just computed. -/
def chain (xnor : Bool) (prev : Bool) : List Bool → List Bool
  | [] => []
  | d :: ds =>
    let q := if xnor then !(prev ^^ d) else prev ^^ d
    q :: chain xnor q ds

/-- q[0..7] (R164): q[0] is D[0]. -/
def qData (pixel : Byte) : List Bool :=
  match toBits pixel with
  | [] => []
  | d :: ds => d :: chain (xnorMode pixel) d ds

/-- q[8] (R164): 1 in XOR mode, 0 in XNOR mode. -/
def q8 (pixel : Byte) : Bool := !xnorMode pixel

/-! ## Steps 3 to 5 (R165 to R167) -/

/-- What step 4 produces: qo[0..7], the 10th bit and delta. -/
structure Balanced where
  qo : List Bool
  b9 : Bool
  delta : Int
  deriving DecidableEq, Repr

/-- Step 4, DC balancing (R166), on q[0..7], q[8] and the balance; the three cases are tested in this order. -/
def dcBalance (q : List Bool) (q8 : Bool) (balance : Int) : Balanced :=
  let n1 : Int := popcount q
  let n0 : Int := 8 - n1
  let bit8 : Int := q8.toNat
  if balance = 0 ∨ n1 = 4 then
    if q8 then ⟨q, !q8, n1 - n0⟩ else ⟨notBits q, !q8, n0 - n1⟩
  else if (balance > 0 ∧ n1 > 4) ∨ (balance < 0 ∧ n1 < 4) then
    ⟨notBits q, true, 2 * bit8 + n0 - n1⟩
  else
    ⟨q, false, -2 * (1 - bit8) + n1 - n0⟩

/-- TMDSCODE(pixel, balance) (R163 to R168): the code word and the balance delta. -/
def tmdsCode (pixel : Byte) (balance : Int) : Sym × Int :=
  let r := dcBalance (qData pixel) (q8 pixel) balance
  (BitVec.ofNat 16 (fromBits (r.qo ++ [q8 pixel, r.b9])), r.delta)

/-! ## ENC -/

/-- ENC (R180). CH = 3 raises E_CMD. -/
def execEnc (ch : BitVec 2) (pix : Byte) (s : State) : Result :=
  match index3? ch with
  | none => .next (raise .cmd s)
  | some c =>
    let b := signed8 (s.bal.get c)
    let r := tmdsCode pix b
    .next (setBal c (enc8 (b + r.2)) (setResult r.1 r.2 s))

end Sys2Proof.Machine
end

