-- ==== Sys2Proof/Machine/Lut.lean ====
section
/-! DEFINITION. The lookup table (spec 41_lut R200 to R202), FASTENCODE (R210), and FENC (R220) and LUTRD (R225).
The table is constant (10_state R51): it is a definition, no field of State. -/

namespace Sys2Proof.Machine

/-- LUT_CODE[p][s] (R201). -/
def lutCode (p : Byte) (s : Fin 3) : Sym := (tmdsCode p (columnBalance s)).1

/-- LUT_DELTA[p][s] (R201): 8-bit two's complement (R11). -/
def lutDelta (p : Byte) (s : Fin 3) : BitVec 8 := enc8 (tmdsCode p (columnBalance s)).2

/-- FASTENCODE(pixel, balance) (R210): the code word and the new balance. -/
def fastEncode (pixel : Byte) (balance : Int) : Sym × Int :=
  let s := stateIndex balance
  (lutCode pixel s, balance + signed8 (lutDelta pixel s))

/-- FENC (R220). CH = 3 raises E_CMD. -/
def execFenc (ch : BitVec 2) (pix : Byte) (s : State) : Result :=
  match index3? ch with
  | none => .next (raise .cmd s)
  | some c =>
    let b := signed8 (s.bal.get c)
    let r := fastEncode pix b
    .next (setBal c (enc8 r.2) (setResult r.1 (signed8 (lutDelta pix (stateIndex b))) s))

/-- LUTRD (R225). ST = 3 raises E_CMD. -/
def execLutrd (st : BitVec 2) (pix : Byte) (s : State) : Result :=
  match index3? st with
  | none => .next (raise .cmd s)
  | some i => .next (setResult (lutCode pix i) (signed8 (lutDelta pix i)) s)

end Sys2Proof.Machine
end

