-- ==== Sys2Proof/Machine/Frame.lean ====
section
/-! DEFINITION. The frame composer (spec 43_frame): the source pixels (R282), the coded rows (R286, R287), the three kinds of
frame (R284, R287), and COMPOSE (R280). -/

namespace Sys2Proof.Machine

/-! ## The source image (R90, R282) -/

/-- The values of a list of which none is missing. -/
def allSome {α : Type} : List (Option α) → Option (List α)
  | [] => some []
  | none :: _ => none
  | some a :: l =>
    match allSome l with
    | none => none
    | some as => some (a :: as)

/-- SRC(y, x, c) (R282), for an image of width `w` with `ch` channels; none when the IMG cell is unwritten. -/
def srcPixel (img : Memory) (w ch y x : Nat) (c : Fin 3) : Option Byte :=
  Memory.read? img ((y * w + x) * ch + if ch = 1 then 0 else c.val)

/-- The three channels of one source position. -/
def srcPosition (img : Memory) (w ch y x : Nat) : Option (Tri Byte) :=
  match srcPixel img w ch y x 0, srcPixel img w ch y x 1, srcPixel img w ch y x 2 with
  | some a, some b, some c => some ⟨a, b, c⟩
  | _, _, _ => none

/-- Row y of the source image. -/
def srcRow (img : Memory) (w ch y : Nat) : Option (List (Tri Byte)) :=
  allSome ((List.range w).map fun x => srcPosition img w ch y x)

/-- The source image, row by row; none when any cell it reads is unwritten (R282). -/
def srcImage (img : Memory) (w h ch : Nat) : Option (List (List (Tri Byte))) :=
  allSome ((List.range h).map fun y => srcRow img w ch y)

/-! ## Coded rows (R286, R287) -/

/-- The FASTENCODE run of one channel over the pixels of a row, from balance `b` on: the codes. -/
def runCodes (b : Int) : List Byte → List Sym
  | [] => []
  | p :: ps => (fastEncode p b).1 :: runCodes (fastEncode p b).2 ps

/-- The balance after the run. -/
def runBalance (b : Int) : List Byte → Int
  | [] => b
  | p :: ps => runBalance (fastEncode p b).2 ps

/-- ROWCODE (R293): the codes of one channel of a row, from balance 0 (R286). -/
def rowCode (pixels : List Byte) : List Sym := runCodes 0 pixels

/-- One channel of a row. -/
def channelOf {α : Type} (c : Fin 3) (row : List (Tri α)) : List α := row.map (·.get c)

/-- Three channels side by side. -/
def zipTri {α : Type} : List α → List α → List α → List (Tri α)
  | a :: as, b :: bs, c :: cs => ⟨a, b, c⟩ :: zipTri as bs cs
  | _, _, _ => []

/-- A coded row: each channel by its own run from balance 0. -/
def encodeRow (row : List (Tri Byte)) : SymRow :=
  zipTri (rowCode (channelOf 0 row)) (rowCode (channelOf 1 row)) (rowCode (channelOf 2 row))

/-- The balance registers after a row (R288). -/
def rowBalances (row : List (Tri Byte)) : Tri (BitVec 8) := Tri.ofFn fun c => enc8 (runBalance 0 (channelOf c row))

/-- BAL after ENCODE_ROWS: the values after the last row (R288). -/
def finalBalances (rows : List (List (Tri Byte))) (bal : Tri (BitVec 8)) : Tri (BitVec 8) :=
  match rows.getLast? with
  | none => bal
  | some row => rowBalances row

/-! ## Frames (R284, R287) -/

/-- A frame filled position by position. -/
def fillFrame (w h : Nat) (f : Nat → Nat → Tri Sym) : List SymRow :=
  (List.range h).map fun y => (List.range w).map fun x => f x y

/-- Rows `rows` overwritten into a frame from row `oy` and column `ox` on (R287: FB[oy + y][ox + x]). -/
def overwriteRect : Nat → Nat → List SymRow → List SymRow → List SymRow
  | _, _, [], frame => frame
  | _, _, _ :: _, [] => []
  | oy + 1, ox, r :: rs, f :: frame => f :: overwriteRect oy ox (r :: rs) frame
  | 0, ox, r :: rs, f :: frame => overwriteAt ox r f :: overwriteRect 0 ox rs frame

/-- COMPOSE_PASSTHROUGH (R284): the raw samples, zero-extended to 16 bits. -/
def passthroughCells (rows : List (List (Tri Byte))) : List SymRow :=
  rows.map fun row => row.map fun p => Tri.ofFn fun c => (p.get c).setWidth 16

/-- COMPOSE_ACTIVE (R287): the fill 0x0FF at active size, then every cell overwritten by a code. -/
def activeCells (w h : Nat) (rows : List (List (Tri Byte))) : List SymRow :=
  overwriteRect 0 0 (rows.map encodeRow) (fillFrame w h fun _ _ => Tri.all codeFill)

/-- The fill of a blanked frame (R287): the blanking pattern on channel P_SYNC_CH, 0x354 on the other two. -/
def blankFill (g : Geometry) (syncCh : Fin 3) (x y : Nat) : Tri Sym :=
  Tri.ofFn fun c => if c = syncCh then blankCode g x y else codeCorner

/-- COMPOSE_BLANKED (R287): the fill at total size, then the active window overwritten, offset by the front porches. -/
def blankedCells (g : Geometry) (syncCh : Fin 3) (rows : List (List (Tri Byte))) : List SymRow :=
  overwriteRect g.vFrontPorch g.hFrontPorch (rows.map encodeRow)
    (fillFrame g.hTotal g.vTotal (blankFill g syncCh))

/-! ## COMPOSE -/

/-- The shape check of R281: true when COMPOSE raises E_SHAPE. -/
def shapeBad (s : State) : Bool :=
  (s.imgC != 1 && s.imgC != 3) || s.imgW == 0 || s.imgH == 0 ||
    decide (s.imgW.toNat > s.platform.params.maxW) || decide (s.imgH.toNat > s.platform.params.maxH)

/-- The source image COMPOSE reads (R90, R282). -/
def srcImageOf (s : State) : Option (List (List (Tri Byte))) :=
  srcImage s.img s.imgW.toNat s.imgH.toNat s.imgC.toNat

/-- The end of a successful COMPOSE: the frame of width `w` and height `h` in FB, and the stream rewound (R290). -/
def publish (w h : BitVec 12) (cells : List SymRow) (bal : Tri (BitVec 8)) (s : State) : State :=
  { s with
    fb := storeFrame cells s.fb
    fbW := w
    fbH := h
    bal := bal
    cur := 0
    eos := false
    lineValid := false
    lineLen := 0
    lineNo := 0 }

/-- COMPOSE past its checks, with the source image `rows` (R280): passthrough, active or blanked by `g`. -/
def composeWith (rows : List (List (Tri Byte))) (g : Option Geometry) (s : State) : State :=
  if passthrough s then publish s.imgW s.imgH (passthroughCells rows) s.bal s
  else
    let bal := finalBalances rows s.bal
    match g with
    | none => publish s.imgW s.imgH (activeCells s.imgW.toNat s.imgH.toNat rows) bal s
    | some g =>
      publish (field12 g.hTotal) (field12 g.vTotal) (blankedCells g s.platform.params.syncCh rows) bal s

/-- COMPOSE's reads and writes (R280, past the checks): an unwritten IMG cell faults (R282). -/
def composeRead (g : Option Geometry) (s : State) : Result :=
  match srcImageOf s with
  | none => .fault .unwrittenImage
  | some rows => .next (composeWith rows g s)

/-- COMPOSE (R280). E_SHAPE is checked before E_RES (R387); both before any write (R291). -/
def execCompose (s : State) : Result :=
  if shapeBad s then .next (raise .shape s)
  else if !passthrough s && blankEn s then
    match geom s with
    | none => .next (raise .res s)
    | some g => composeRead (some g) s
  else composeRead none s

end Sys2Proof.Machine
end

