-- ==== Sys2Proof/Machine/Line.lean ====
section
/-! DEFINITION. The line server (spec 44_line): FETCH (R320 to R331). -/

namespace Sys2Proof.Machine

/-- End of stream (R324): nothing is copied, and CUR stays. -/
def endOfStream (s : State) : State :=
  { s with eos := true, lineValid := false, lineLen := 0, lines := .endOfStream :: s.lines }

/-- CUR after row `r` was served (R322): the next row, wrapped to 0 at FB_H in loop mode. -/
def nextCur (s : State) (r : BitVec 12) : BitVec 12 :=
  let next := field12 (r.toNat + 1)
  if !oneShot s && next == s.fbH then 0 else next

/-- Row `r` is served (R323): its cells in LB, the line registers and CUR. -/
def serveRow (r : BitVec 12) (cells : SymRow) (s : State) : State :=
  { s with
    lb := overwriteAt 0 cells s.lb
    lineLen := s.fbW
    lineNo := r
    lineValid := true
    eos := false
    cur := nextCur s r
    lines := .line r cells :: s.lines }

/-- FETCH of row `r` of the frame held. -/
def fetchRow (r : BitVec 12) (s : State) : Result :=
  match fbRow? s r.toNat with
  | none => .fault .unwrittenFrame
  | some cells => .next (serveRow r cells s)

/-- FETCH (R320): E_EMPTY with no frame (R321), end of stream past the last row in one-shot mode (R324), else the row at CUR,
which loop mode wraps to 0 (R327). -/
def execFetch (s : State) : Result :=
  if s.fbH = 0 then .next (raise .empty s)
  else if s.cur.toNat ≥ s.fbH.toNat then
    if oneShot s then .next (endOfStream s) else fetchRow 0 s
  else fetchRow s.cur s

end Sys2Proof.Machine
end

