-- ==== Sys2Proof/Machine/Dispatch.lean ====
section
/-! DEFINITION. One arm per command: the meaning each command has (spec 30_encoding R127). -/

namespace Sys2Proof.Machine

/-- What executing a command does (R33's `execute`). -/
def exec (i : Instr) (s : State) : Host.Outcome State Fault Refusal :=
  match i with
  | .nop => Sys2Proof.Machine.execNop s
  | .enc ch pix => Sys2Proof.Machine.execEnc ch pix s
  | .fenc ch pix => Sys2Proof.Machine.execFenc ch pix s
  | .balrst mask => Sys2Proof.Machine.execBalrst mask s
  | .lutrd st pix => Sys2Proof.Machine.execLutrd st pix s
  | .blkrd x y => Sys2Proof.Machine.execBlkrd x y s
  | .compose => Sys2Proof.Machine.execCompose s
  | .fetch => Sys2Proof.Machine.execFetch s
  | .clrerr => Sys2Proof.Machine.execClrerr s
  | .srst => Sys2Proof.Machine.execSrst s

end Sys2Proof.Machine
end

