-- ==== Sys2Proof/Machine/Engine.lean ====
section
/-! DEFINITION. The engine's step (spec 10_state R33), and what each kind of turn does (20_memory R93, 70_reset R420, R421). -/

namespace Sys2Proof.Machine

/-- `BUSY <- 0` at the end of the engine step (R33). -/
def finish : Result → Result
  | .next s => .next (idle s)
  | .fault f => .fault f
  | .refused r => .refused r

/-- `execute(PENDING)` (R33): the decoded command's meaning, or E_CMD for an illegal word (R128, R129). -/
def executePending (s : State) : Result :=
  match decode s.pending with
  | .ok i => exec i s
  | .error _ => .next (raise .cmd s)

/-- The engine's turn: one whole command when BUSY = 1 (R33), nothing when BUSY = 0 (R398). While `rst` is asserted the state
is held at reset (R420). -/
def engineTurn (s : State) : Result :=
  if s.rst then .next (hardReset s)
  else if s.busy then finish (executePending s)
  else .next s

/-- The rising clock edges of `rst` (R420): asserted it resets, released it lets the machine go on. -/
def rstTurn (level : Bool) (s : State) : Result :=
  if level then .next (hardReset s) else .next { s with rst := false }

/-- A host access: refused while `rst` is asserted (R421). -/
def hostTurn (access : State → Result) (s : State) : Result :=
  if s.rst then .refused .accessDuringReset else access s

/-- One turn, already taken off the schedule. -/
def takeTurn (t : Turn) (s : State) : Result :=
  match t with
  | .read addr bytes => hostTurn (hostRead addr bytes) s
  | .write addr bytes v => hostTurn (hostWrite addr bytes v) s
  | .engine => engineTurn s
  | .rst level => rstTurn level s

/-- The next turn of the schedule; with none left the host makes no further access, and the engine's step is taken (R33: the
time to it is finite). -/
def nextTurn (s : State) : Result :=
  match s.schedule with
  | [] => engineTurn s
  | t :: rest => takeTurn t { s with schedule := rest }

end Sys2Proof.Machine
end

