-- ==== Sys2Proof/Machine/Step.lean ====
section
/-! DEFINITION. One step of the machine: the next turn in the total order of spec 20_memory R93. -/

namespace Sys2Proof.Machine

/-- One step: a host access, an engine step, or a clock edge of `rst`, whichever turn comes next. -/
def step (s : State) : Host.Outcome State Fault Refusal := nextTurn s

/-- `s` with a command word accepted (PENDING and BUSY, as the CMD write of R33 leaves them), `rst` released, and the engine's
turn next, so that the very next step executes it. -/
def State.withFetchWord (s : State) (nbits w : Nat) : State :=
  { s with
    pending := BitVec.ofNat 32 (w % 2 ^ nbits)
    busy := true
    rst := false
    schedule := .engine :: s.schedule }

end Sys2Proof.Machine
end

