-- ==== Sys2Proof/Safety.lean ====
section
/-! DEFINITION. The terms the claims use: what a legal state is (`State.Inv`), what a run without error is (spec 60_exceptions
R393), and the quantities of the coder's laws (40_coder R171 to R175). -/

namespace Sys2Proof.Machine

/-! ## Symbols -/

/-- A symbol whose bits 15:10 are zero (R91). -/
def SymWf (v : Sym) : Prop := v.toNat < 1024

/-- All three symbols of a position are well-formed. -/
def PosWf (p : Tri Sym) : Prop := ∀ c, SymWf (p.get c)

/-- The number of 1 bits of a ten-bit code word (R171). -/
def onesOf (code : Sym) : Nat := popcount (toBits (code.extractLsb' 0 10))

/-- The number of 0 bits of a ten-bit code word (R171). -/
def zerosOf (code : Sym) : Nat := 10 - onesOf code

/-- The number of places where neighbours of a bit sequence differ (R173). -/
def transitions : List Bool → Nat
  | [] => 0
  | [_] => 0
  | a :: b :: l => (if a = b then 0 else 1) + transitions (b :: l)

/-- The pixel a code word stands for (R175): undo the inversion by code[9], then the chain by code[8]. -/
def pixelOfCode (code : Sym) : Byte :=
  let data : Byte := code.extractLsb' 0 8
  let q : Byte := if code.getLsbD 9 then ~~~data else data
  let d (k : Nat) : Bool :=
    if k = 0 then q.getLsbD 0
    else if code.getLsbD 8 then q.getLsbD k ^^ q.getLsbD (k - 1)
    else !(q.getLsbD k ^^ q.getLsbD (k - 1))
  BitVec.ofNat 8 (fromBits ((List.range 8).map d))

/-- The number of positions of a blanking pattern that carry a code (R250). -/
def countCode (code : Sym) (pattern : List (List Sym)) : Nat := (pattern.map (·.count code)).sum

/-! ## Command words -/

/-- The illegal words of R128, by arithmetic on the word: OPC is `w % 256`, and the fields follow it. -/
def IllegalWord (w : Word) : Prop :=
  let opc := w.toNat % 256
  let operands := w.toNat / 256
  10 ≤ opc ∨
  ((opc = 0 ∨ opc = 6 ∨ opc = 7 ∨ opc = 8 ∨ opc = 9) ∧ operands ≠ 0) ∨
  ((opc = 1 ∨ opc = 2 ∨ opc = 4) ∧ (2 ^ 10 ≤ operands ∨ operands % 4 = 3)) ∨
  (opc = 3 ∧ 2 ^ 3 ≤ operands)

/-! ## Images -/

/-- The image shape COMPOSE accepts (R281). -/
def ShapeOk (s : State) : Prop :=
  (s.imgC = 1 ∨ s.imgC = 3) ∧ 0 < s.imgW.toNat ∧ 0 < s.imgH.toNat ∧
    s.imgW.toNat ≤ s.platform.params.maxW ∧ s.imgH.toNat ≤ s.platform.params.maxH

/-- (IMG_W, IMG_H) is the key of mode `m` (R240, R243). -/
def IsKey (s : State) (m : VideoMode) : Prop := m.hActive = s.imgW.toNat ∧ m.vActive = s.imgH.toNat

/-- `ps` is SRC(y, 0, c) to SRC(y, W-1, c), read from the cells IMG[(y*W + x)*C + (if C == 1 then 0 else c)] (R282). -/
def SourceLine (s : State) (y : Nat) (c : Fin 3) (ps : List Byte) : Prop :=
  ps.length = s.imgW.toNat ∧
  ∀ x < s.imgW.toNat, Memory.read? s.img
    ((y * s.imgW.toNat + x) * s.imgC.toNat + if s.imgC.toNat = 1 then 0 else c.val) = ps[x]?

/-- What a successful COMPOSE leaves unchanged, and the stream state it sets (R280, R290): `t` is `s` but for FB, FB_W, FB_H
and BAL, with CUR, EOS, LINE_VALID, LINE_LEN and LINE_NO zero. -/
def ComposedFrom (s t : State) : Prop :=
  t = { s with fb := t.fb, fbW := t.fbW, fbH := t.fbH, bal := t.bal, cur := 0, eos := false, lineValid := false,
               lineLen := 0, lineNo := 0 }

/-! ## Legal states -/

/-- FB holds the frame: every cell of the rectangle FB_W x FB_H has been written (R49). -/
def HoldsFrame (s : State) : Prop :=
  ∀ r < s.fbH.toNat, ∃ row, s.fb[r]? = some row ∧ s.fbW.toNat ≤ row.length

/-- LB holds the line: every cell of the LINE_LEN positions has been written (R50). -/
def HoldsLine (s : State) : Prop := s.lineValid = true → s.lineLen.toNat ≤ s.lb.length

/-- The image a COMPOSE reads has been written (R282): IMG[0] to IMG[W*H*C - 1]. -/
def ImageWritten (s : State) : Prop :=
  ∀ i < s.imgW.toNat * s.imgH.toNat * s.imgC.toNat, (Memory.read? s.img i).isSome = true

/-- What every state of a run from reset meets, and every step keeps. -/
structure State.Inv (s : State) : Prop where
  /-- IMG is in canonical form. -/
  imgSorted : Memory.wf s.img = true
  /-- No cell beyond IMG_CAP is written (R48, R83). -/
  imgInRange : ∀ cell ∈ s.img, cell.1 < imgCap s
  /-- RES_CODE is a well-formed symbol (R39, R91). -/
  resCodeWf : SymWf s.resCode
  /-- RES_DELTA is an even delta in -10..10 (R39, R170). -/
  resDeltaRange : -10 ≤ s.resDelta.toInt ∧ s.resDelta.toInt ≤ 10 ∧ s.resDelta.toInt % 2 = 0
  /-- The frame held fits FB (R49, R242, R281). -/
  frameFits : s.fbW.toNat ≤ s.platform.params.maxW ∧ s.fbH.toNat ≤ s.platform.params.maxH
  /-- The frame held has been written (R49). -/
  frameHeld : HoldsFrame s
  /-- FB is in canonical form, no row empty, and its symbols have bits 15:10 zero (R91). -/
  fbWf : ∀ row ∈ s.fb, row ≠ [] ∧ ∀ p ∈ row, PosWf p
  /-- LB's symbols have bits 15:10 zero (R91). -/
  lbWf : ∀ p ∈ s.lb, PosWf p
  /-- The line held has been written (R50). -/
  lineHeld : HoldsLine s
  /-- The line held is a row of the frame held (R42, R323, R328). -/
  lineOfFrame : s.lineValid = true → s.lineLen = s.fbW ∧ s.lineNo.toNat < s.fbH.toNat
  /-- LINE_LEN is 0 when LINE_VALID = 0 (R42). -/
  noLine : s.lineValid = false → s.lineLen = 0
  /-- The cursor never passes the end of the frame held (R322). -/
  curInFrame : s.cur.toNat ≤ s.fbH.toNat
  /-- EOS holds only past the last row of a frame held, with no line (R324). -/
  eosAtEnd : s.eos = true → s.lineValid = false ∧ s.cur = s.fbH ∧ s.fbH ≠ 0
  /-- ERRCODE is 0 exactly when no error is recorded (R35, R381). -/
  errHasCode : s.err = false ↔ s.errCode = 0
  /-- ERRCODE 7 to 15 is never recorded (R381). -/
  errCodeKnown : s.errCode.toNat ≤ 6
  /-- A recorded error stands in the event history (R393). -/
  errLogged : s.err = true → s.errLog ≠ []
  /-- No command is pending while `rst` is asserted (R420). -/
  idleInReset : s.rst = true → s.busy = false

/-! ## Runs -/

/-- No error was raised, over the whole history (R393): what a claim that a program ran correctly takes. -/
def State.NoErrorEver (s : State) : Prop := s.errLog = []

/-- The state of a turn: the next turn is taken off the schedule. -/
def State.popTurn (s : State) : State := { s with schedule := s.schedule.tail }

/-- The engine's turn is next: the schedule says so, or the host makes no further access. -/
def State.engineNext (s : State) : Prop := s.schedule.head? = some .engine ∨ s.schedule = []

/-- The states FETCH after FETCH leads to: `n` FETCHes, each answering a next state. -/
def fetches : Nat → State → Option State
  | 0, s => some s
  | n + 1, s =>
    match exec .fetch s with
    | .next t => fetches n t
    | _ => none

end Sys2Proof.Machine
end

