-- ==== Sys2Proof/Certificates/Slice0/Obligations.lean ====
section
/-! DEFINITION. The statements for the provers, in the order of the spec's files. A statement about every state speaks of every
platform (P_SYNC_CH, P_MODES, MAX_W, MAX_H: spec 00_scope R7 to R9) and of every order of turns (20_memory R93).
Some rules the spec marks as its own inference ('derived'): R100, R162, R169 to R175, R203, R204, R221, R250, R283, R293, R325
and R326. Their statements have basis 'derived', and cite the section the inference stands in. -/

open Sys2Proof Sys2Proof.Machine

/-! ## 10_state: the engine and the registers -/

/-- R33, R93: what a step is while `rst` is released. At the engine's turn with BUSY = 1 it executes the decoded command and then
sets BUSY to 0, and a stop of the command is the step's; with BUSY = 0 the engine's turn changes nothing but the turns to come.
At a host's turn it is that one read or write, with the turn taken off (the schedule is the model's own field, log entries 1
and 2). -/
def Obligations.EngineStepRunsTheDecodedCommand : Prop :=
  ∀ s : State, s.rst = false →
    (s.engineNext →
      (∀ i, s.busy = true → decode s.pending = .ok i →
        step s = match exec i s.popTurn with
          | .next t => .next { t with busy := false }
          | .fault f => .fault f
          | .refused r => .refused r) ∧
      (s.busy = false → step s = .next { s with schedule := s.schedule.tail })) ∧
    (∀ (addr : Word) (n : Nat), s.schedule.head? = some (.read addr n) → step s = hostRead addr n s.popTurn) ∧
    (∀ (addr : Word) (n : Nat) (v : Word), s.schedule.head? = some (.write addr n v) →
      step s = hostWrite addr n v s.popTurn)

/-- R35: the fields of STATUS, and zeros between them. -/
def Obligations.StatusWordFields : Prop :=
  ∀ s : State,
    (statusWord s).getLsbD 0 = s.busy ∧ (statusWord s).getLsbD 1 = s.err ∧ (statusWord s).getLsbD 2 = s.eos ∧
    (statusWord s).getLsbD 3 = s.lineValid ∧ (statusWord s).extractLsb' 4 4 = 0 ∧
    (statusWord s).extractLsb' 8 4 = s.errCode ∧ (statusWord s).extractLsb' 12 4 = 0 ∧
    (statusWord s).getLsbD 16 = modeHit s ∧ (statusWord s).extractLsb' 17 15 = 0

/-- R33: the CMD write while BUSY = 0. Accepted unless an error is recorded and the opcode is neither CLRERR's nor SRST's. -/
def Obligations.CmdWriteIsAccepted : Prop :=
  ∀ (s : State) (w : Word), s.busy = false → (s.err = false ∨ w.toNat % 256 = 8 ∨ w.toNat % 256 = 9) →
    hostWrite 0 4 w s = .next { s with pending := w, busy := true }

/-- R47: each G_* register reads its field of P_MODES[(IMG_W, IMG_H)] when that is a key, and MODE_HIT is 1 then; 0 otherwise.
R8: on every platform the totals of 640 x 480 read 800 and 525. -/
def Obligations.GeometryReadback : Prop :=
  ∀ s : State,
    (∀ m, IsKey s m →
      let g := s.platform.params.modes.get m
      modeHit s = true ∧
      (regRead s .gHTotal).toNat = g.hTotal ∧ (regRead s .gVTotal).toNat = g.vTotal ∧
      (regRead s .gHfp).toNat = g.hFrontPorch ∧ (regRead s .gVfp).toNat = g.vFrontPorch ∧
      (regRead s .gHbp).toNat = g.hBackPorch ∧ (regRead s .gVbp).toNat = g.vBackPorch) ∧
    (IsKey s .m640x480 → (regRead s .gHTotal).toNat = 800 ∧ (regRead s .gVTotal).toNat = 525) ∧
    ((∀ m, ¬ IsKey s m) →
      modeHit s = false ∧ regRead s .gHTotal = 0 ∧ regRead s .gVTotal = 0 ∧ regRead s .gHfp = 0 ∧
      regRead s .gVfp = 0 ∧ regRead s .gHbp = 0 ∧ regRead s .gVbp = 0)

/-- R34 to R47, R94: the register at each offset, which a host access reaches while BUSY = 0, a read changing nothing but the
bus's answer (the model's own field, log entry 8); what each register reads (the G_* ones are GeometryReadback's, the fields of
STATUS StatusWordFields'); a write of a read-write register keeps the bits the register has, reads back, and changes nothing
else; a write of a read-only register changes nothing. -/
def Obligations.RegisterWrites : Prop :=
  ∀ (s : State) (v : Word),
    (s.busy = false →
      ∀ entry ∈ [((0x000 : Word), Reg.cmd), (0x004, .status), (0x008, .ctrl), (0x00C, .imgW), (0x010, .imgH), (0x014, .imgC),
        (0x018, .resCode), (0x01C, .resDelta), (0x020, .bal 0), (0x024, .bal 1), (0x028, .bal 2), (0x02C, .fbW),
        (0x030, .fbH), (0x034, .cur), (0x038, .lineLen), (0x03C, .lineNo), (0x040, .gHTotal), (0x044, .gVTotal),
        (0x048, .gHfp), (0x04C, .gVfp), (0x050, .gHbp), (0x054, .gVbp)],
        hostRead entry.1 4 s = .next { s with rdata := regRead s entry.2 } ∧
        hostWrite entry.1 4 v s = .next (regWrite entry.2 v s)) ∧
    (regRead s .cmd = 0 ∧ regRead s .status = statusWord s ∧
      (regRead s .ctrl).toNat = s.ctrl.toNat ∧ (regRead s .imgW).toNat = s.imgW.toNat ∧
      (regRead s .imgH).toNat = s.imgH.toNat ∧ (regRead s .imgC).toNat = s.imgC.toNat ∧
      (regRead s .resCode).toNat = s.resCode.toNat ∧ regRead s .resDelta = s.resDelta ∧
      (∀ c, (regRead s (.bal c)).toInt = (s.bal.get c).toInt) ∧
      (regRead s .fbW).toNat = s.fbW.toNat ∧ (regRead s .fbH).toNat = s.fbH.toNat ∧
      (regRead s .cur).toNat = s.cur.toNat ∧
      (regRead s .lineLen).toNat = s.lineLen.toNat ∧ (regRead s .lineNo).toNat = s.lineNo.toNat) ∧
    ((regRead (regWrite .ctrl v s) .ctrl).toNat = v.toNat % 2 ^ 3 ∧
      regWrite .ctrl v s = { s with ctrl := (regWrite .ctrl v s).ctrl }) ∧
    ((regRead (regWrite .imgW v s) .imgW).toNat = v.toNat % 2 ^ 12 ∧
      regWrite .imgW v s = { s with imgW := (regWrite .imgW v s).imgW }) ∧
    ((regRead (regWrite .imgH v s) .imgH).toNat = v.toNat % 2 ^ 12 ∧
      regWrite .imgH v s = { s with imgH := (regWrite .imgH v s).imgH }) ∧
    ((regRead (regWrite .imgC v s) .imgC).toNat = v.toNat % 2 ^ 3 ∧
      regWrite .imgC v s = { s with imgC := (regWrite .imgC v s).imgC }) ∧
    (∀ c, (regRead (regWrite (.bal c) v s) (.bal c)).toInt =
        (if v.toNat % 256 < 128 then (v.toNat % 256 : Int) else (v.toNat % 256 : Int) - 256) ∧
      (∀ d, d ≠ c → (regWrite (.bal c) v s).bal.get d = s.bal.get d) ∧
      regWrite (.bal c) v s = { s with bal := (regWrite (.bal c) v s).bal }) ∧
    (∀ r ∈ [Reg.status, .resCode, .resDelta, .fbW, .fbH, .cur, .lineLen, .lineNo, .gHTotal, .gVTotal, .gHfp, .gVfp, .gHbp,
      .gVbp], regWrite r v s = s)

/-- R55: after reset the engine is idle, every register reads 0, and no cell of a memory is written. -/
def Obligations.ResetLeavesRegistersZero : Prop :=
  State.reset.busy = false ∧ (∀ r, regRead State.reset r = 0) ∧ (∀ i, Memory.read? State.reset.img i = none) ∧
    (∀ y x c, fbCell? State.reset y x c = none) ∧ (∀ x c, lbCell? State.reset x c = none)

/-! ## 20_memory: the host bus -/

/-- R86, with R80 and R82: exactly which accesses are bus errors. A read is none when it is 32 bits wide, aligned, and at a
register or inside a window; a write is none at a register or inside the IMG window, the other two being read-only. That the
same holds while BUSY = 1, so that a bad access, a write of the FB or the LB window among them, is a bus error before R96's
E_BUSY or draw, is the model's reading (DEDUCED, log entry 11). -/
def Obligations.BusErrorsExactly : Prop :=
  ∀ (s : State) (addr v : Word) (n : Nat),
    let a := addr.toNat
    let atReg := a ≤ 0x54
    let inImg := 0x10000000 ≤ a ∧ a < 0x10000000 + 4 * imgCap s
    let inFb := 0x20000000 ≤ a ∧ a < 0x20000000 + 4 * (s.fbW.toNat * s.fbH.toNat * 3)
    let inLb := s.lineValid = true ∧ 0x30000000 ≤ a ∧ a < 0x30000000 + 4 * (s.lineLen.toNat * 3)
    ((∃ e, hostRead addr n s = .fault (.busError e)) ↔
      n ≠ 4 ∨ a % 4 ≠ 0 ∨ ¬ (atReg ∨ inImg ∨ inFb ∨ inLb)) ∧
    ((∃ e, hostWrite addr n v s = .fault (.busError e)) ↔ n ≠ 4 ∨ a % 4 ≠ 0 ∨ ¬ (atReg ∨ inImg))

/-- R83: the IMG window. -/
def Obligations.ImgWindow : Prop :=
  ∀ (s : State) (i : Nat), s.busy = false →
    (i < imgCap s →
      (∀ v : Word, ∃ t, hostWrite (BitVec.ofNat 32 (0x10000000 + 4 * i)) 4 v s = .next t ∧
        t = { s with img := t.img } ∧ Memory.read? t.img i = some (v.extractLsb' 0 8) ∧
        (∀ j, j ≠ i → Memory.read? t.img j = Memory.read? s.img j)) ∧
      (∀ b, Memory.read? s.img i = some b →
        hostRead (BitVec.ofNat 32 (0x10000000 + 4 * i)) 4 s = .next { s with rdata := b.setWidth 32 }) ∧
      (Memory.read? s.img i = none →
        ∃ b : Byte, hostRead (BitVec.ofNat 32 (0x10000000 + 4 * i)) 4 s =
          .next { s with rdata := b.setWidth 32, draws := s.draws + 1 })) ∧
    (imgCap s ≤ i → 0x10000000 + 4 * i < 0x20000000 → ∀ v : Word,
      hostRead (BitVec.ofNat 32 (0x10000000 + 4 * i)) 4 s = .fault (.busError .unmapped) ∧
      hostWrite (BitVec.ofNat 32 (0x10000000 + 4 * i)) 4 v s = .fault (.busError .unmapped))

/-- R84: the FB window, row-major with the channels interleaved, read-only. -/
def Obligations.FbWindow : Prop :=
  ∀ s : State, s.busy = false →
    (HoldsFrame s → ∀ y x (c : Fin 3), y < s.fbH.toNat → x < s.fbW.toNat →
      ∃ v, fbCell? s y x c = some v ∧
        hostRead (BitVec.ofNat 32 (0x20000000 + 4 * ((y * s.fbW.toNat + x) * 3 + c.val))) 4 s =
          .next { s with rdata := v.setWidth 32 }) ∧
    (∀ i, s.fbW.toNat * s.fbH.toNat * 3 ≤ i → 0x20000000 + 4 * i < 0x30000000 →
      hostRead (BitVec.ofNat 32 (0x20000000 + 4 * i)) 4 s = .fault (.busError .unmapped)) ∧
    (∀ i (v : Word), 0x20000000 + 4 * i < 0x30000000 →
      ∃ e, hostWrite (BitVec.ofNat 32 (0x20000000 + 4 * i)) 4 v s = .fault (.busError e))

/-- R85: the LB window, readable only while LINE_VALID = 1, read-only. -/
def Obligations.LbWindow : Prop :=
  ∀ s : State, s.busy = false →
    (s.lineValid = true → HoldsLine s → ∀ x (c : Fin 3), x < s.lineLen.toNat →
      ∃ v, lbCell? s x c = some v ∧
        hostRead (BitVec.ofNat 32 (0x30000000 + 4 * (x * 3 + c.val))) 4 s = .next { s with rdata := v.setWidth 32 }) ∧
    (∀ i, s.lineValid = false ∨ s.lineLen.toNat * 3 ≤ i → 0x30000000 + 4 * i < 2 ^ 32 →
      hostRead (BitVec.ofNat 32 (0x30000000 + 4 * i)) 4 s = .fault (.busError .unmapped)) ∧
    (∀ i (v : Word), 0x30000000 + 4 * i < 2 ^ 32 →
      ∃ e, hostWrite (BitVec.ofNat 32 (0x30000000 + 4 * i)) 4 v s = .fault (.busError e))

/-- R96: accesses while BUSY = 1. STATUS and CMD read as ever, every other read is a free value, and a write of a register or
of the IMG window is dropped and raises E_BUSY. That a write of a read-only register raises it too is the model's reading
(DEDUCED, log entry 10). -/
def Obligations.AccessesWhileBusy : Prop :=
  ∀ (s : State) (addr v : Word) (l : Location), s.busy = true → locate s addr 4 = .ok l →
    (l = .reg .status → hostRead addr 4 s = .next { s with rdata := statusWord s }) ∧
    (l = .reg .cmd → hostRead addr 4 s = .next { s with rdata := 0 }) ∧
    (l ≠ .reg .status → l ≠ .reg .cmd →
      ∃ w, hostRead addr 4 s = .next { s with rdata := w, draws := s.draws + 1 }) ∧
    ((∃ r, l = .reg r) ∨ (∃ i, l = .img i) →
      hostWrite addr 4 v s =
        .next { s with err := true, errCode := if s.err then s.errCode else 6, errLog := .busy :: s.errLog })

/-- R100, R49: FB changes only when the engine executes COMPOSE, or at a clock edge with `rst` asserted. -/
def Obligations.OnlyComposeWritesFrame : Prop :=
  ∀ s t : State, step s = .next t → s.rst = false → s.schedule.head? ≠ some (.rst true) →
    ¬ (s.engineNext ∧ s.busy = true ∧ decode s.pending = .ok .compose) → t.fb = s.fb

/-! ## 30_encoding: words and commands -/

/-- Decode and encode agree: every legal command is read back from its word, with every operand at every value. -/
def Obligations.DecodeEncodeRoundTrip : Prop := ∀ i : Instr, i.wf = true → decode (encode i) = .ok i

/-- Every word that decodes is the word its command assembles to, and the command is legal: no two words mean one command. -/
def Obligations.DecodedWordIsTheEncoding : Prop := ∀ (w : Word) (i : Instr), decode w = .ok i → i.wf = true ∧ encode i = w

/-- R128, R129: the words that do not decode are exactly the reserved and illegal ones. -/
def Obligations.IllegalWordsExactly : Prop := ∀ w : Word, (∃ e, decode w = .error e) ↔ IllegalWord w

/-- R128: an accepted illegal word raises E_CMD when the engine executes it, with no other effect. -/
def Obligations.IllegalWordRaisesCmdError : Prop :=
  ∀ s : State, s.engineNext → s.rst = false → s.busy = true → IllegalWord s.pending →
    step s = .next { s with
      busy := false, err := true, errCode := if s.err then s.errCode else 1, errLog := .cmd :: s.errLog,
      schedule := s.schedule.tail }

/-- R131: words written out from the assembler table decode to the commands they stand for. -/
def Obligations.SpecWordsDecode : Prop :=
  decode 0x00000000 = .ok .nop ∧ decode 0x0003FD01 = .ok (.enc 1 0xFF) ∧ decode 0x00000202 = .ok (.fenc 2 0) ∧
  decode 0x00000703 = .ok (.balrst 7) ∧ decode 0x0003FC04 = .ok (.lutrd 0 0xFF) ∧
  decode 0x06406405 = .ok (.blkrd 100 100) ∧ decode 0x00000006 = .ok .compose ∧ decode 0x00000007 = .ok .fetch ∧
  decode 0x00000008 = .ok .clrerr ∧ decode 0x00000009 = .ok .srst

/-! ## 40_coder: the coder and ENC -/

/-- R162: an 8-bit value is recovered from its bits. -/
def Obligations.BitsRoundTrip : Prop := ∀ v : Byte, fromBits (toBits v) = v.toNat

/-- R169: the coder depends on the balance through its sign alone. -/
def Obligations.CoderReadsOnlyTheSign : Prop := ∀ (p : Byte) (b : Int), tmdsCode p b = tmdsCode p b.sign

/-- R170: the range and direction of the delta, and that no step overflows a counter of 5 bits or more (8 among them). -/
def Obligations.CoderDeltaRange : Prop :=
  ∀ (p : Byte) (b : Int),
    let d := (tmdsCode p b).2
    (b = 0 → -8 ≤ d ∧ d ≤ 8) ∧ (0 < b → -10 ≤ d ∧ d ≤ 0) ∧ (b < 0 → 0 ≤ d ∧ d ≤ 10) ∧ d % 2 = 0 ∧
    (∀ w : Nat, 5 ≤ w → -2 ^ (w - 1) ≤ b → b ≤ 2 ^ (w - 1) - 1 → -2 ^ (w - 1) ≤ b + d ∧ b + d ≤ 2 ^ (w - 1) - 1) ∧
    (1 ≤ b → b ≤ 127 → -9 ≤ b + d ∧ b + d ≤ 127) ∧ (b ≤ -1 → -128 ≤ b → -128 ≤ b + d ∧ b + d ≤ 9)

/-- R171: the delta is the ones less the zeros of the ten-bit code word, so a counter from 0 holds the sum over its words. -/
def Obligations.CoderDeltaIsDisparity : Prop :=
  (∀ (p : Byte) (b : Int), (tmdsCode p b).2 = (onesOf (tmdsCode p b).1 : Int) - (zerosOf (tmdsCode p b).1 : Int)) ∧
  (∀ ps : List Byte, runBalance 0 ps =
    ((runCodes 0 ps).map fun code => (onesOf code : Int) - (zerosOf code : Int)).sum)

/-- R172: from balance 0 every sequence of pixels keeps the balance in {-8, -6, ..., 8}, and every member is reached. -/
def Obligations.BalancesReachableFromZero : Prop :=
  (∀ ps : List Byte, runBalance 0 ps ∈ [(-8 : Int), -6, -4, -2, 0, 2, 4, 6, 8]) ∧
  (∀ v ∈ [(-8 : Int), -6, -4, -2, 0, 2, 4, 6, 8], ∃ ps : List Byte, runBalance 0 ps = v)

/-- R173: the transition bounds of the code words and of the control codes, and when the minimum-transition property holds. -/
def Obligations.CodeTransitionBounds : Prop :=
  (∀ (p : Byte) (b : Int),
    transitions (toBits ((tmdsCode p b).1.extractLsb' 0 8)) ≤ 3 ∧
    transitions (toBits ((tmdsCode p b).1.extractLsb' 0 10)) ≤ 5 ∧
    (3 ≤ transitions (toBits p) →
      transitions (toBits ((tmdsCode p b).1.extractLsb' 0 8)) ≤ transitions (toBits p))) ∧
  transitions (toBits (codeCorner.extractLsb' 0 10)) = 7 ∧ transitions (toBits (codeTopBottom.extractLsb' 0 10)) = 7 ∧
  transitions (toBits (codeLeftRight.extractLsb' 0 10)) = 8 ∧ transitions (toBits (codeCenter.extractLsb' 0 10)) = 8

/-- R174: the code space. 460 distinct code words, none of them a control code, and one equal to the non-blanking fill. -/
def Obligations.CodeSpace : Prop :=
  (∃ codes : List Sym, codes.Nodup ∧ codes.length = 460 ∧ ∀ v, v ∈ codes ↔ ∃ (p : Byte) (b : Int), (tmdsCode p b).1 = v) ∧
  (∀ (p : Byte) (b : Int), (tmdsCode p b).1.extractLsb' 10 6 = 0 ∧
    (tmdsCode p b).1 ∉ [codeCorner, codeTopBottom, codeLeftRight, codeCenter] ∧
    ((tmdsCode p b).1 = codeFill ↔ p = 0xFF ∧ b < 0))

/-- R175: the pixel is recovered from the code alone. -/
def Obligations.CodeDeterminesPixel : Prop := ∀ (p : Byte) (b : Int), pixelOfCode (tmdsCode p b).1 = p

/-- R180: ENC completes on every legal channel. Its results are the coder's, as integers: the balance does not wrap. -/
def Obligations.EncResult : Prop :=
  ∀ (s : State) (c : Fin 3) (pix : Byte),
    let b := (s.bal.get c).toInt
    let r := tmdsCode pix b
    ∃ t, exec (.enc (BitVec.ofNat 2 c.val) pix) s = .next t ∧
      t.resCode = r.1 ∧ t.resDelta.toInt = r.2 ∧ (t.bal.get c).toInt = b + r.2 ∧
      (∀ d, d ≠ c → t.bal.get d = s.bal.get d) ∧
      t = { s with resCode := t.resCode, resDelta := t.resDelta, bal := t.bal }

/-- R128, R180, R220, R225: ENC, FENC and LUTRD with the reserved index 3 raise E_CMD, and nothing else changes. -/
def Obligations.ReservedIndexRaisesCmdError : Prop :=
  ∀ (s : State) (pix : Byte),
    let t : State := { s with
      busy := false, err := true, errCode := if s.err then s.errCode else 1, errLog := .cmd :: s.errLog }
    exec (.enc 3 pix) s = .next t ∧ exec (.fenc 3 pix) s = .next t ∧ exec (.lutrd 3 pix) s = .next t

/-! ## 41_lut: the table, FENC and LUTRD -/

/-- R203: the table is the direct coder, at every integer balance. -/
def Obligations.TableEqualsCoder : Prop :=
  ∀ (p : Byte) (b : Int), (lutCode p (stateIndex b), (lutDelta p (stateIndex b)).toInt) = tmdsCode p b

/-- R204: the ranges of the table's entries. -/
def Obligations.TableEntryRanges : Prop :=
  ∀ p : Byte,
    (0 ≤ (lutDelta p 0).toInt ∧ (lutDelta p 0).toInt ≤ 10) ∧ (-8 ≤ (lutDelta p 1).toInt ∧ (lutDelta p 1).toInt ≤ 8) ∧
    (-10 ≤ (lutDelta p 2).toInt ∧ (lutDelta p 2).toInt ≤ 0) ∧
    ∀ st : Fin 3, (lutDelta p st).toInt % 2 = 0 ∧ (lutDelta p st).toInt = (tmdsCode p (st.val - 1)).2 ∧
      (lutCode p st).toNat ≤ 1023 ∧ (lutCode p st).extractLsb' 10 6 = 0

/-- R220: FENC completes on every legal channel, with the entry of the balance's state; the balance does not wrap. -/
def Obligations.FencResult : Prop :=
  ∀ (s : State) (c : Fin 3) (pix : Byte),
    let b := (s.bal.get c).toInt
    let st : Fin 3 := if b < 0 then 0 else if b = 0 then 1 else 2
    ∃ t, exec (.fenc (BitVec.ofNat 2 c.val) pix) s = .next t ∧
      t.resCode = lutCode pix st ∧ t.resDelta.toInt = (lutDelta pix st).toInt ∧
      (t.bal.get c).toInt = b + (lutDelta pix st).toInt ∧
      (∀ d, d ≠ c → t.bal.get d = s.bal.get d) ∧
      t = { s with resCode := t.resCode, resDelta := t.resDelta, bal := t.bal }

/-- R221: FENC and ENC with the same operands, from the same state, leave the same state. -/
def Obligations.FencEqualsEnc : Prop :=
  ∀ (s : State) (ch : BitVec 2) (pix : Byte), exec (.fenc ch pix) s = exec (.enc ch pix) s

/-- R225, R201: LUTRD completes on every legal state index with the entry built at balance ST - 1, and reads no BAL. -/
def Obligations.LutrdResult : Prop :=
  ∀ (s : State) (st : Fin 3) (pix : Byte),
    ∃ t, exec (.lutrd (BitVec.ofNat 2 st.val) pix) s = .next t ∧
      t.resCode = (tmdsCode pix (st.val - 1)).1 ∧ t.resDelta.toInt = (tmdsCode pix (st.val - 1)).2 ∧
      t = { s with resCode := t.resCode, resDelta := t.resDelta }

/-! ## 42_blanking: the pattern and BLKRD -/

/-- R248: the active window of every mode lies in the centre region. -/
def Obligations.ActiveWindowIsCentre : Prop :=
  ∀ (p : Platform) (m : VideoMode) (x y : Nat),
    let g := p.params.modes.get m
    g.hFrontPorch ≤ x → x < g.hFrontPorch + m.hActive → g.vFrontPorch ≤ y → y < g.vFrontPorch + m.vActive →
      blankCode g x y = 0x2AB

/-- R250: how many positions of the blanking pattern each region has, for every mode, and the default 640 x 480 numbers. -/
def Obligations.BlankingRegionSizes : Prop :=
  (∀ (p : Platform) (m : VideoMode),
    let g := p.params.modes.get m
    let ho := g.hFrontPorch + g.hBackPorch
    let vo := g.vFrontPorch + g.vBackPorch
    countCode 0x354 (buildBlanking g) = vo * ho ∧
    countCode 0x0AB (buildBlanking g) = vo * (g.hTotal - ho) ∧
    countCode 0x154 (buildBlanking g) = (g.vTotal - vo) * ho ∧
    countCode 0x2AB (buildBlanking g) = (g.vTotal - vo) * (g.hTotal - ho) ∧
    (0 < g.hFrontPorch → 0 < g.vFrontPorch → blankCode g 0 0 = 0x354)) ∧
  countCode 0x354 (buildBlanking (ModeTable.default.get .m640x480)) = 2752 ∧
  countCode 0x0AB (buildBlanking (ModeTable.default.get .m640x480)) = 31648 ∧
  countCode 0x154 (buildBlanking (ModeTable.default.get .m640x480)) = 30848 ∧
  countCode 0x2AB (buildBlanking (ModeTable.default.get .m640x480)) = 354752

/-- R251, R247: BLKRD completes inside the total frame of a key, with the code of the position's bands. -/
def Obligations.BlkrdResult : Prop :=
  ∀ (s : State) (m : VideoMode) (x y : BitVec 12), IsKey s m →
    let g := s.platform.params.modes.get m
    x.toNat < g.hTotal → y.toNat < g.vTotal →
    exec (.blkrd x y) s = .next { s with
      resDelta := 0
      resCode :=
        if y.toNat < g.vFrontPorch ∨ (g.vTotal : Int) - g.vBackPorch ≤ y.toNat then
          if x.toNat < g.hFrontPorch ∨ (g.hTotal : Int) - g.hBackPorch ≤ x.toNat then 0x354 else 0x0AB
        else
          if x.toNat < g.hFrontPorch ∨ (g.hTotal : Int) - g.hBackPorch ≤ x.toNat then 0x154 else 0x2AB }

/-- R251, R387: BLKRD raises E_RES first, when the size is no key, then E_RANGE outside the total frame. -/
def Obligations.BlkrdErrors : Prop :=
  ∀ (s : State) (x y : BitVec 12),
    ((∀ m, ¬ IsKey s m) → exec (.blkrd x y) s = .next { s with
      busy := false, err := true, errCode := if s.err then s.errCode else 3, errLog := .res :: s.errLog }) ∧
    (∀ m, IsKey s m →
      (s.platform.params.modes.get m).hTotal ≤ x.toNat ∨ (s.platform.params.modes.get m).vTotal ≤ y.toNat →
      exec (.blkrd x y) s = .next { s with
        busy := false, err := true, errCode := if s.err then s.errCode else 5, errLog := .range :: s.errLog })

/-! ## 43_frame: COMPOSE -/

/-- R281: COMPOSE raises E_SHAPE exactly for a malformed shape, in every mode, before anything else. -/
def Obligations.ComposeShapeError : Prop :=
  ∀ s : State,
    let t : State := { s with
      busy := false, err := true, errCode := if s.err then s.errCode else 2, errLog := .shape :: s.errLog }
    (exec .compose s = .next t ↔
      (s.imgC ≠ 1 ∧ s.imgC ≠ 3) ∨ s.imgW = 0 ∨ s.imgH = 0 ∨ s.platform.params.maxW < s.imgW.toNat ∨
        s.platform.params.maxH < s.imgH.toNat)

/-- R285: a blanked COMPOSE of a size that is no key raises E_RES; without blanking, or in passthrough, no lookup is made and
every size that R281 allows is composed. -/
def Obligations.ComposeGeometryError : Prop :=
  ∀ s : State, ShapeOk s →
    (s.ctrl.getLsbD 0 = false → s.ctrl.getLsbD 2 = true → (∀ m, ¬ IsKey s m) →
      exec .compose s = .next { s with
        busy := false, err := true, errCode := if s.err then s.errCode else 3, errLog := .res :: s.errLog }) ∧
    (s.ctrl.getLsbD 0 = true ∨ s.ctrl.getLsbD 2 = false → ImageWritten s →
      ∃ t, exec .compose s = .next t ∧ ComposedFrom s t ∧ t.fbW = s.imgW ∧ t.fbH = s.imgH)

/-- R282: past its checks COMPOSE reads exactly IMG[0] to IMG[W*H*C - 1]; it faults when one of them is unwritten, and only
then. -/
def Obligations.ComposeReadsTheImage : Prop :=
  ∀ s : State, ShapeOk s → (s.ctrl.getLsbD 0 = true ∨ s.ctrl.getLsbD 2 = false ∨ ∃ m, IsKey s m) →
    (exec .compose s = .fault .unwrittenImage ↔ ¬ ImageWritten s) ∧
    (ImageWritten s ↔ ∃ t, exec .compose s = .next t)

/-- R284: the passthrough frame, whatever BLANK_EN says: the raw samples, BAL unchanged. -/
def Obligations.ComposePassthroughFrame : Prop :=
  ∀ s : State, ShapeOk s → s.ctrl.getLsbD 0 = true → ImageWritten s →
    ∃ t, exec .compose s = .next t ∧ ComposedFrom s t ∧ t.fbW = s.imgW ∧ t.fbH = s.imgH ∧ t.bal = s.bal ∧
      (∀ y x (c : Fin 3), y < s.imgH.toNat → x < s.imgW.toNat →
        ∃ b : Byte, Memory.read? s.img
            ((y * s.imgW.toNat + x) * s.imgC.toNat + if s.imgC.toNat = 1 then 0 else c.val) = some b ∧
          fbCell? t y x c = some (b.setWidth 16)) ∧
      (∀ y x (c : Fin 3), s.imgH.toNat ≤ y ∨ s.imgW.toNat ≤ x → fbCell? t y x c = fbCell? s y x c)

/-- R287, R293: the unblanked TMDS frame: every cell is its row's code, each row and channel coded from balance 0; cells
outside the frame keep their values. -/
def Obligations.ComposeActiveFrame : Prop :=
  ∀ s : State, ShapeOk s → s.ctrl.getLsbD 0 = false → s.ctrl.getLsbD 2 = false → ImageWritten s →
    ∃ t, exec .compose s = .next t ∧ ComposedFrom s t ∧ t.fbW = s.imgW ∧ t.fbH = s.imgH ∧
      (∀ y (c : Fin 3), y < s.imgH.toNat → ∃ ps, SourceLine s y c ps ∧
        ∀ x < s.imgW.toNat, fbCell? t y x c = (rowCode ps)[x]?) ∧
      (∀ y x (c : Fin 3), s.imgH.toNat ≤ y ∨ s.imgW.toNat ≤ x → fbCell? t y x c = fbCell? s y x c)

/-- R287, R293: the blanked TMDS frame: the codes in the active window, offset by the front porches; outside it the blanking
pattern on channel P_SYNC_CH and 0x354 on the other two; cells outside the frame keep their values. -/
def Obligations.ComposeBlankedFrame : Prop :=
  ∀ (s : State) (m : VideoMode), ShapeOk s → s.ctrl.getLsbD 0 = false → s.ctrl.getLsbD 2 = true → IsKey s m →
    ImageWritten s →
    let g := s.platform.params.modes.get m
    ∃ t, exec .compose s = .next t ∧ ComposedFrom s t ∧ t.fbW.toNat = g.hTotal ∧ t.fbH.toNat = g.vTotal ∧
      (∀ y (c : Fin 3), y < s.imgH.toNat → ∃ ps, SourceLine s y c ps ∧
        ∀ x < s.imgW.toNat, fbCell? t (g.vFrontPorch + y) (g.hFrontPorch + x) c = (rowCode ps)[x]?) ∧
      (∀ y x (c : Fin 3), y < g.vTotal → x < g.hTotal →
        ¬ (g.vFrontPorch ≤ y ∧ y < g.vFrontPorch + s.imgH.toNat ∧
           g.hFrontPorch ≤ x ∧ x < g.hFrontPorch + s.imgW.toNat) →
        fbCell? t y x c = some (if c = s.platform.params.syncCh then blankCode g x y else 0x354)) ∧
      (∀ y x (c : Fin 3), g.vTotal ≤ y ∨ g.hTotal ≤ x → fbCell? t y x c = fbCell? s y x c)

/-- R288: after a TMDS COMPOSE, BAL[c] is the counter after the last pixel of row H-1 of channel c, run from 0. -/
def Obligations.ComposeFinalBalances : Prop :=
  ∀ s t : State, exec .compose s = .next t → ComposedFrom s t → s.ctrl.getLsbD 0 = false →
    ∀ c : Fin 3, ∃ ps, SourceLine s (s.imgH.toNat - 1) c ps ∧ (t.bal.get c).toInt = runBalance 0 ps

/-- R283: with one input channel the three channels of the active window carry identical codes, and in TMDS mode the three
counters end alike; `oy` and `ox` are where the window begins. -/
def Obligations.GrayscaleChannelsAgree : Prop :=
  ∀ (s t : State) (oy ox : Nat), exec .compose s = .next t → ComposedFrom s t → s.imgC = 1 →
    ((s.ctrl.getLsbD 0 = true ∨ s.ctrl.getLsbD 2 = false) ∧ oy = 0 ∧ ox = 0 ∨
      s.ctrl.getLsbD 0 = false ∧ s.ctrl.getLsbD 2 = true ∧ ∃ m, IsKey s m ∧
        oy = (s.platform.params.modes.get m).vFrontPorch ∧ ox = (s.platform.params.modes.get m).hFrontPorch) →
    (∀ y x (c : Fin 3), y < s.imgH.toNat → x < s.imgW.toNat →
      fbCell? t (oy + y) (ox + x) c = fbCell? t (oy + y) (ox + x) 0) ∧
    (s.ctrl.getLsbD 0 = false → ∀ c : Fin 3, t.bal.get c = t.bal.get 0)

/-- R286: the balances before a TMDS COMPOSE never affect its frame or anything else it leaves. -/
def Obligations.StartBalancesNeverMatter : Prop :=
  ∀ (s t : State) (b : Tri (BitVec 8)), s.ctrl.getLsbD 0 = false → exec .compose s = .next t → ComposedFrom s t →
    exec .compose { s with bal := b } = .next t

/-! ## 44_line: FETCH -/

/-- R321, R324: FETCH with no frame raises E_EMPTY; past the last row in one-shot mode it gives end of stream, which is no
error and leaves CUR. -/
def Obligations.FetchWithoutRow : Prop :=
  ∀ s : State,
    (s.fbH = 0 → exec .fetch s = .next { s with
      busy := false, err := true, errCode := if s.err then s.errCode else 4, errLog := .empty :: s.errLog }) ∧
    (s.fbH ≠ 0 → s.fbH.toNat ≤ s.cur.toNat → s.ctrl.getLsbD 1 = true → exec .fetch s = .next { s with
      eos := true, lineValid := false, lineLen := 0, lines := .endOfStream :: s.lines })

/-- R320, R322, R323, R327: FETCH completes on every frame held: the row at CUR, or row 0 after a loop wrap, is copied to LB
and CUR moves on; nothing else changes. -/
def Obligations.FetchServesRow : Prop :=
  ∀ (s : State) (r : BitVec 12), HoldsFrame s →
    (s.cur.toNat < s.fbH.toNat ∧ r = s.cur ∨
      s.fbH ≠ 0 ∧ s.fbH.toNat ≤ s.cur.toNat ∧ s.ctrl.getLsbD 1 = false ∧ r = 0) →
    ∃ t, exec .fetch s = .next t ∧
      (∀ x (c : Fin 3), x < s.fbW.toNat → lbCell? t x c = fbCell? s r.toNat x c) ∧
      (∀ x (c : Fin 3), s.fbW.toNat ≤ x → lbCell? t x c = lbCell? s x c) ∧
      t.lineLen = s.fbW ∧ t.lineNo = r ∧ t.lineValid = true ∧ t.eos = false ∧
      t.cur.toNat = (if s.ctrl.getLsbD 1 = false ∧ r.toNat + 1 = s.fbH.toNat then 0 else r.toNat + 1) ∧
      t.lines = .line r (t.lb.take s.fbW.toNat) :: s.lines ∧
      t = { s with lb := t.lb, lineLen := t.lineLen, lineNo := t.lineNo, lineValid := t.lineValid, eos := t.eos,
                   cur := t.cur, lines := t.lines }

/-- R325: in loop mode, from CUR = 0, fetch number k serves row k mod FB_H and never signals end of stream. -/
def Obligations.LoopServesRowsInTurn : Prop :=
  ∀ s : State, HoldsFrame s → s.fbH ≠ 0 → s.ctrl.getLsbD 1 = false → s.cur = 0 →
    ∀ k : Nat, ∃ t, fetches (k + 1) s = some t ∧ t.lineValid = true ∧ t.eos = false ∧
      t.lineNo.toNat = k % s.fbH.toNat ∧
      ∀ x (c : Fin 3), x < s.fbW.toNat → lbCell? t x c = fbCell? s (k % s.fbH.toNat) x c

/-- R326: in one-shot mode, from CUR = 0, fetches 0 to FB_H - 1 serve those rows, and every later fetch gives end of stream. -/
def Obligations.OneShotServesEachRowOnce : Prop :=
  ∀ s : State, HoldsFrame s → s.fbH ≠ 0 → s.ctrl.getLsbD 1 = true → s.cur = 0 →
    ∀ k : Nat, ∃ t, fetches (k + 1) s = some t ∧
      (k < s.fbH.toNat → t.lineValid = true ∧ t.eos = false ∧ t.lineNo.toNat = k ∧
        ∀ x (c : Fin 3), x < s.fbW.toNat → lbCell? t x c = fbCell? s k x c) ∧
      (s.fbH.toNat ≤ k → t.lineValid = false ∧ t.eos = true)

/-! ## 45_control -/

/-- R350, R351, R353: NOP changes nothing, BALRST zeroes exactly the selected counters, CLRERR clears the recorded error. -/
def Obligations.ControlCommandResults : Prop :=
  ∀ s : State,
    exec .nop s = .next s ∧
    (∀ mask, ∃ t, exec (.balrst mask) s = .next t ∧ t = { s with bal := t.bal } ∧
      ∀ c : Fin 3, t.bal.get c = if mask.getLsbD c.val then 0 else s.bal.get c) ∧
    exec .clrerr s = .next { s with err := false, errCode := 0 }

/-- R355: SRST sets every register and state bit to its reset value, keeps the contents of IMG, FB and LB, and makes FB and LB
unreadable; a FETCH then raises E_EMPTY. PENDING is unspecified (R55), and the model's own fields stay (log entries 7 to 9). -/
def Obligations.SrstResult : Prop :=
  ∀ s : State, ∃ t, exec .srst s = .next t ∧
    t = { State.reset with
          pending := t.pending, img := s.img, fb := s.fb, lb := s.lb, rst := s.rst, platform := s.platform,
          schedule := s.schedule, rdata := s.rdata, draws := s.draws, errLog := s.errLog, lines := s.lines } ∧
    (∀ r, regRead t r = 0) ∧
    (∀ (addr : Word) (n : Nat), 0x20000000 ≤ addr.toNat → ∃ e, hostRead addr n t = .fault (.busError e)) ∧
    ∃ u, exec .fetch t = .next u ∧ u.errCode = 4

/-! ## 60_exceptions: errors -/

/-- R385: a command that raises is precise: it changes nothing but the error record (first code kept), and the engine is idle. -/
def Obligations.FailedCommandIsPrecise : Prop :=
  ∀ (i : Instr) (s t : State), exec i s = .next t → t.errLog ≠ s.errLog →
    ∃ e, t = { s with
      busy := false, err := true, errCode := if s.err then s.errCode else errNumber e, errLog := e :: s.errLog }

/-- R381: which commands raise which code. E_BUSY is no command's; ENC, FENC, LUTRD raise only E_CMD (their other grounds are
words that do not decode), and NOP, BALRST, CLRERR and SRST, once decoded, raise nothing. -/
def Obligations.ErrorsOfEachCommand : Prop :=
  ∀ (i : Instr) (s t : State) (e : ErrCode), exec i s = .next t → t.errLog = e :: s.errLog →
    match i with
    | .enc ch _ => e = .cmd ∧ ch = 3
    | .fenc ch _ => e = .cmd ∧ ch = 3
    | .lutrd st _ => e = .cmd ∧ st = 3
    | .blkrd _ _ => e = .res ∨ e = .range
    | .compose => e = .shape ∨ e = .res
    | .fetch => e = .empty
    | .nop => False
    | .balrst _ => False
    | .clrerr => False
    | .srst => False

/-- R386: while an error is recorded a CMD write that is neither CLRERR's nor SRST's opcode is dropped, and nothing changes. -/
def Obligations.CommandsDroppedWhileError : Prop :=
  ∀ (s : State) (w : Word), s.busy = false → s.err = true → w.toNat % 256 ≠ 8 → w.toNat % 256 ≠ 9 →
    hostWrite 0 4 w s = .next s

/-- R393: no step takes anything out of the event history, and it adds at most one error. -/
def Obligations.ErrorHistoryOnlyGrows : Prop :=
  ∀ s t : State, step s = .next t → t.errLog = s.errLog ∨ ∃ e, t.errLog = e :: s.errLog

/-! ## 70_reset_and_hazards -/

/-- R420, R421: at a clock edge with `rst` asserted every register takes its reset value, a pending command is abandoned and
every IMG cell is unwritten; PENDING and the contents of FB and LB are unspecified, and the model's own fields stay (log entries
7 to 9). An engine's turn while `rst` is asserted is one more such edge, and an edge with `rst` released changes nothing but the
level held, both the model's form of the input (log entry 13). A host access while `rst` is asserted is refused. -/
def Obligations.HardwareReset : Prop :=
  ∀ s : State,
    (s.schedule.head? = some (.rst true) ∨ (s.rst = true ∧ s.engineNext) → ∃ t, step s = .next t ∧ t = { State.reset with
      pending := t.pending, fb := t.fb, lb := t.lb, rst := true, platform := s.platform, schedule := s.schedule.tail,
      rdata := s.rdata, draws := s.draws, errLog := s.errLog, lines := s.lines }) ∧
    (s.schedule.head? = some (.rst false) → step s = .next { s with rst := false, schedule := s.schedule.tail }) ∧
    (s.rst = true → ∀ (addr v : Word) (n : Nat),
      (s.schedule.head? = some (.read addr n) → step s = .refused .accessDuringReset) ∧
      (s.schedule.head? = some (.write addr n v) → step s = .refused .accessDuringReset))

/-- R426: no step changes the parameters the TPE is built with. -/
def Obligations.PlatformIsFixed : Prop := ∀ s t : State, step s = .next t → t.platform = s.platform

/-! ## The invariant -/

/-- The state after reset is legal. -/
def Obligations.ResetIsLegal : Prop := State.reset.Inv

/-- Every step keeps the invariant, from every state that meets it. -/
def Obligations.EveryStepKeepsLegality : Prop := ∀ s t : State, s.Inv → step s = .next t → t.Inv

/-- In a legal state FETCH always answers a next state, and no read meets an unwritten cell of the frame or the line held. -/
def Obligations.LegalStatesNeverReadUnwrittenSymbols : Prop :=
  ∀ s : State, s.Inv →
    (∃ t, exec .fetch s = .next t) ∧
    (∀ (addr : Word) (n : Nat), hostRead addr n s ≠ .fault .unwrittenFrame ∧ hostRead addr n s ≠ .fault .unwrittenLine)
end

