-- ==== Sys2Proof/Laws/State.lean ====
section
/-! SUPPORT. One lemma per field per update of the state, all true by `rfl`, so that no later proof unfolds a record update. -/

namespace Sys2Proof.Machine

section
variable (code : Sym) (delta : Int) (s : State)

@[simp] theorem setResult_busy : (setResult code delta s).busy = s.busy := rfl
@[simp] theorem setResult_pending : (setResult code delta s).pending = s.pending := rfl
@[simp] theorem setResult_err : (setResult code delta s).err = s.err := rfl
@[simp] theorem setResult_errCode : (setResult code delta s).errCode = s.errCode := rfl
@[simp] theorem setResult_eos : (setResult code delta s).eos = s.eos := rfl
@[simp] theorem setResult_lineValid : (setResult code delta s).lineValid = s.lineValid := rfl
@[simp] theorem setResult_ctrl : (setResult code delta s).ctrl = s.ctrl := rfl
@[simp] theorem setResult_imgW : (setResult code delta s).imgW = s.imgW := rfl
@[simp] theorem setResult_imgH : (setResult code delta s).imgH = s.imgH := rfl
@[simp] theorem setResult_imgC : (setResult code delta s).imgC = s.imgC := rfl
@[simp] theorem setResult_resCode : (setResult code delta s).resCode = code := rfl
@[simp] theorem setResult_resDelta : (setResult code delta s).resDelta = sext32 delta := rfl
@[simp] theorem setResult_bal : (setResult code delta s).bal = s.bal := rfl
@[simp] theorem setResult_fbW : (setResult code delta s).fbW = s.fbW := rfl
@[simp] theorem setResult_fbH : (setResult code delta s).fbH = s.fbH := rfl
@[simp] theorem setResult_cur : (setResult code delta s).cur = s.cur := rfl
@[simp] theorem setResult_lineLen : (setResult code delta s).lineLen = s.lineLen := rfl
@[simp] theorem setResult_lineNo : (setResult code delta s).lineNo = s.lineNo := rfl
@[simp] theorem setResult_img : (setResult code delta s).img = s.img := rfl
@[simp] theorem setResult_fb : (setResult code delta s).fb = s.fb := rfl
@[simp] theorem setResult_lb : (setResult code delta s).lb = s.lb := rfl
@[simp] theorem setResult_rst : (setResult code delta s).rst = s.rst := rfl
@[simp] theorem setResult_platform : (setResult code delta s).platform = s.platform := rfl
@[simp] theorem setResult_schedule : (setResult code delta s).schedule = s.schedule := rfl
@[simp] theorem setResult_rdata : (setResult code delta s).rdata = s.rdata := rfl
@[simp] theorem setResult_draws : (setResult code delta s).draws = s.draws := rfl
@[simp] theorem setResult_errLog : (setResult code delta s).errLog = s.errLog := rfl
@[simp] theorem setResult_lines : (setResult code delta s).lines = s.lines := rfl

end

section
variable (c : Fin 3) (v : BitVec 8) (s : State)

@[simp] theorem setBal_busy : (setBal c v s).busy = s.busy := rfl
@[simp] theorem setBal_pending : (setBal c v s).pending = s.pending := rfl
@[simp] theorem setBal_err : (setBal c v s).err = s.err := rfl
@[simp] theorem setBal_errCode : (setBal c v s).errCode = s.errCode := rfl
@[simp] theorem setBal_eos : (setBal c v s).eos = s.eos := rfl
@[simp] theorem setBal_lineValid : (setBal c v s).lineValid = s.lineValid := rfl
@[simp] theorem setBal_ctrl : (setBal c v s).ctrl = s.ctrl := rfl
@[simp] theorem setBal_imgW : (setBal c v s).imgW = s.imgW := rfl
@[simp] theorem setBal_imgH : (setBal c v s).imgH = s.imgH := rfl
@[simp] theorem setBal_imgC : (setBal c v s).imgC = s.imgC := rfl
@[simp] theorem setBal_resCode : (setBal c v s).resCode = s.resCode := rfl
@[simp] theorem setBal_resDelta : (setBal c v s).resDelta = s.resDelta := rfl
@[simp] theorem setBal_bal : (setBal c v s).bal = s.bal.set c v := rfl
@[simp] theorem setBal_fbW : (setBal c v s).fbW = s.fbW := rfl
@[simp] theorem setBal_fbH : (setBal c v s).fbH = s.fbH := rfl
@[simp] theorem setBal_cur : (setBal c v s).cur = s.cur := rfl
@[simp] theorem setBal_lineLen : (setBal c v s).lineLen = s.lineLen := rfl
@[simp] theorem setBal_lineNo : (setBal c v s).lineNo = s.lineNo := rfl
@[simp] theorem setBal_img : (setBal c v s).img = s.img := rfl
@[simp] theorem setBal_fb : (setBal c v s).fb = s.fb := rfl
@[simp] theorem setBal_lb : (setBal c v s).lb = s.lb := rfl
@[simp] theorem setBal_rst : (setBal c v s).rst = s.rst := rfl
@[simp] theorem setBal_platform : (setBal c v s).platform = s.platform := rfl
@[simp] theorem setBal_schedule : (setBal c v s).schedule = s.schedule := rfl
@[simp] theorem setBal_rdata : (setBal c v s).rdata = s.rdata := rfl
@[simp] theorem setBal_draws : (setBal c v s).draws = s.draws := rfl
@[simp] theorem setBal_errLog : (setBal c v s).errLog = s.errLog := rfl
@[simp] theorem setBal_lines : (setBal c v s).lines = s.lines := rfl

end

section
variable (i : Nat) (b : Byte) (s : State)

@[simp] theorem imgWrite_busy : (imgWrite i b s).busy = s.busy := rfl
@[simp] theorem imgWrite_pending : (imgWrite i b s).pending = s.pending := rfl
@[simp] theorem imgWrite_err : (imgWrite i b s).err = s.err := rfl
@[simp] theorem imgWrite_errCode : (imgWrite i b s).errCode = s.errCode := rfl
@[simp] theorem imgWrite_eos : (imgWrite i b s).eos = s.eos := rfl
@[simp] theorem imgWrite_lineValid : (imgWrite i b s).lineValid = s.lineValid := rfl
@[simp] theorem imgWrite_ctrl : (imgWrite i b s).ctrl = s.ctrl := rfl
@[simp] theorem imgWrite_imgW : (imgWrite i b s).imgW = s.imgW := rfl
@[simp] theorem imgWrite_imgH : (imgWrite i b s).imgH = s.imgH := rfl
@[simp] theorem imgWrite_imgC : (imgWrite i b s).imgC = s.imgC := rfl
@[simp] theorem imgWrite_resCode : (imgWrite i b s).resCode = s.resCode := rfl
@[simp] theorem imgWrite_resDelta : (imgWrite i b s).resDelta = s.resDelta := rfl
@[simp] theorem imgWrite_bal : (imgWrite i b s).bal = s.bal := rfl
@[simp] theorem imgWrite_fbW : (imgWrite i b s).fbW = s.fbW := rfl
@[simp] theorem imgWrite_fbH : (imgWrite i b s).fbH = s.fbH := rfl
@[simp] theorem imgWrite_cur : (imgWrite i b s).cur = s.cur := rfl
@[simp] theorem imgWrite_lineLen : (imgWrite i b s).lineLen = s.lineLen := rfl
@[simp] theorem imgWrite_lineNo : (imgWrite i b s).lineNo = s.lineNo := rfl
@[simp] theorem imgWrite_img : (imgWrite i b s).img = Memory.write s.img i b := rfl
@[simp] theorem imgWrite_fb : (imgWrite i b s).fb = s.fb := rfl
@[simp] theorem imgWrite_lb : (imgWrite i b s).lb = s.lb := rfl
@[simp] theorem imgWrite_rst : (imgWrite i b s).rst = s.rst := rfl
@[simp] theorem imgWrite_platform : (imgWrite i b s).platform = s.platform := rfl
@[simp] theorem imgWrite_schedule : (imgWrite i b s).schedule = s.schedule := rfl
@[simp] theorem imgWrite_rdata : (imgWrite i b s).rdata = s.rdata := rfl
@[simp] theorem imgWrite_draws : (imgWrite i b s).draws = s.draws := rfl
@[simp] theorem imgWrite_errLog : (imgWrite i b s).errLog = s.errLog := rfl
@[simp] theorem imgWrite_lines : (imgWrite i b s).lines = s.lines := rfl

end

section
variable (w : Word) (s : State)

@[simp] theorem accept_busy : (accept w s).busy = true := rfl
@[simp] theorem accept_pending : (accept w s).pending = w := rfl
@[simp] theorem accept_err : (accept w s).err = s.err := rfl
@[simp] theorem accept_errCode : (accept w s).errCode = s.errCode := rfl
@[simp] theorem accept_eos : (accept w s).eos = s.eos := rfl
@[simp] theorem accept_lineValid : (accept w s).lineValid = s.lineValid := rfl
@[simp] theorem accept_ctrl : (accept w s).ctrl = s.ctrl := rfl
@[simp] theorem accept_imgW : (accept w s).imgW = s.imgW := rfl
@[simp] theorem accept_imgH : (accept w s).imgH = s.imgH := rfl
@[simp] theorem accept_imgC : (accept w s).imgC = s.imgC := rfl
@[simp] theorem accept_resCode : (accept w s).resCode = s.resCode := rfl
@[simp] theorem accept_resDelta : (accept w s).resDelta = s.resDelta := rfl
@[simp] theorem accept_bal : (accept w s).bal = s.bal := rfl
@[simp] theorem accept_fbW : (accept w s).fbW = s.fbW := rfl
@[simp] theorem accept_fbH : (accept w s).fbH = s.fbH := rfl
@[simp] theorem accept_cur : (accept w s).cur = s.cur := rfl
@[simp] theorem accept_lineLen : (accept w s).lineLen = s.lineLen := rfl
@[simp] theorem accept_lineNo : (accept w s).lineNo = s.lineNo := rfl
@[simp] theorem accept_img : (accept w s).img = s.img := rfl
@[simp] theorem accept_fb : (accept w s).fb = s.fb := rfl
@[simp] theorem accept_lb : (accept w s).lb = s.lb := rfl
@[simp] theorem accept_rst : (accept w s).rst = s.rst := rfl
@[simp] theorem accept_platform : (accept w s).platform = s.platform := rfl
@[simp] theorem accept_schedule : (accept w s).schedule = s.schedule := rfl
@[simp] theorem accept_rdata : (accept w s).rdata = s.rdata := rfl
@[simp] theorem accept_draws : (accept w s).draws = s.draws := rfl
@[simp] theorem accept_errLog : (accept w s).errLog = s.errLog := rfl
@[simp] theorem accept_lines : (accept w s).lines = s.lines := rfl

end

section
variable (s : State)

@[simp] theorem idle_busy : (idle s).busy = false := rfl
@[simp] theorem idle_pending : (idle s).pending = s.pending := rfl
@[simp] theorem idle_err : (idle s).err = s.err := rfl
@[simp] theorem idle_errCode : (idle s).errCode = s.errCode := rfl
@[simp] theorem idle_eos : (idle s).eos = s.eos := rfl
@[simp] theorem idle_lineValid : (idle s).lineValid = s.lineValid := rfl
@[simp] theorem idle_ctrl : (idle s).ctrl = s.ctrl := rfl
@[simp] theorem idle_imgW : (idle s).imgW = s.imgW := rfl
@[simp] theorem idle_imgH : (idle s).imgH = s.imgH := rfl
@[simp] theorem idle_imgC : (idle s).imgC = s.imgC := rfl
@[simp] theorem idle_resCode : (idle s).resCode = s.resCode := rfl
@[simp] theorem idle_resDelta : (idle s).resDelta = s.resDelta := rfl
@[simp] theorem idle_bal : (idle s).bal = s.bal := rfl
@[simp] theorem idle_fbW : (idle s).fbW = s.fbW := rfl
@[simp] theorem idle_fbH : (idle s).fbH = s.fbH := rfl
@[simp] theorem idle_cur : (idle s).cur = s.cur := rfl
@[simp] theorem idle_lineLen : (idle s).lineLen = s.lineLen := rfl
@[simp] theorem idle_lineNo : (idle s).lineNo = s.lineNo := rfl
@[simp] theorem idle_img : (idle s).img = s.img := rfl
@[simp] theorem idle_fb : (idle s).fb = s.fb := rfl
@[simp] theorem idle_lb : (idle s).lb = s.lb := rfl
@[simp] theorem idle_rst : (idle s).rst = s.rst := rfl
@[simp] theorem idle_platform : (idle s).platform = s.platform := rfl
@[simp] theorem idle_schedule : (idle s).schedule = s.schedule := rfl
@[simp] theorem idle_rdata : (idle s).rdata = s.rdata := rfl
@[simp] theorem idle_draws : (idle s).draws = s.draws := rfl
@[simp] theorem idle_errLog : (idle s).errLog = s.errLog := rfl
@[simp] theorem idle_lines : (idle s).lines = s.lines := rfl

end

section
variable (e : ErrCode) (s : State)

@[simp] theorem recordError_busy : (recordError e s).busy = s.busy := rfl
@[simp] theorem recordError_pending : (recordError e s).pending = s.pending := rfl
@[simp] theorem recordError_err : (recordError e s).err = true := rfl
@[simp] theorem recordError_errCode : (recordError e s).errCode = (if s.err then s.errCode else errNumber e) := rfl
@[simp] theorem recordError_eos : (recordError e s).eos = s.eos := rfl
@[simp] theorem recordError_lineValid : (recordError e s).lineValid = s.lineValid := rfl
@[simp] theorem recordError_ctrl : (recordError e s).ctrl = s.ctrl := rfl
@[simp] theorem recordError_imgW : (recordError e s).imgW = s.imgW := rfl
@[simp] theorem recordError_imgH : (recordError e s).imgH = s.imgH := rfl
@[simp] theorem recordError_imgC : (recordError e s).imgC = s.imgC := rfl
@[simp] theorem recordError_resCode : (recordError e s).resCode = s.resCode := rfl
@[simp] theorem recordError_resDelta : (recordError e s).resDelta = s.resDelta := rfl
@[simp] theorem recordError_bal : (recordError e s).bal = s.bal := rfl
@[simp] theorem recordError_fbW : (recordError e s).fbW = s.fbW := rfl
@[simp] theorem recordError_fbH : (recordError e s).fbH = s.fbH := rfl
@[simp] theorem recordError_cur : (recordError e s).cur = s.cur := rfl
@[simp] theorem recordError_lineLen : (recordError e s).lineLen = s.lineLen := rfl
@[simp] theorem recordError_lineNo : (recordError e s).lineNo = s.lineNo := rfl
@[simp] theorem recordError_img : (recordError e s).img = s.img := rfl
@[simp] theorem recordError_fb : (recordError e s).fb = s.fb := rfl
@[simp] theorem recordError_lb : (recordError e s).lb = s.lb := rfl
@[simp] theorem recordError_rst : (recordError e s).rst = s.rst := rfl
@[simp] theorem recordError_platform : (recordError e s).platform = s.platform := rfl
@[simp] theorem recordError_schedule : (recordError e s).schedule = s.schedule := rfl
@[simp] theorem recordError_rdata : (recordError e s).rdata = s.rdata := rfl
@[simp] theorem recordError_draws : (recordError e s).draws = s.draws := rfl
@[simp] theorem recordError_errLog : (recordError e s).errLog = e :: s.errLog := rfl
@[simp] theorem recordError_lines : (recordError e s).lines = s.lines := rfl

end

section
variable (e : ErrCode) (s : State)

@[simp] theorem raise_busy : (raise e s).busy = false := rfl
@[simp] theorem raise_pending : (raise e s).pending = s.pending := rfl
@[simp] theorem raise_err : (raise e s).err = true := rfl
@[simp] theorem raise_errCode : (raise e s).errCode = (if s.err then s.errCode else errNumber e) := rfl
@[simp] theorem raise_eos : (raise e s).eos = s.eos := rfl
@[simp] theorem raise_lineValid : (raise e s).lineValid = s.lineValid := rfl
@[simp] theorem raise_ctrl : (raise e s).ctrl = s.ctrl := rfl
@[simp] theorem raise_imgW : (raise e s).imgW = s.imgW := rfl
@[simp] theorem raise_imgH : (raise e s).imgH = s.imgH := rfl
@[simp] theorem raise_imgC : (raise e s).imgC = s.imgC := rfl
@[simp] theorem raise_resCode : (raise e s).resCode = s.resCode := rfl
@[simp] theorem raise_resDelta : (raise e s).resDelta = s.resDelta := rfl
@[simp] theorem raise_bal : (raise e s).bal = s.bal := rfl
@[simp] theorem raise_fbW : (raise e s).fbW = s.fbW := rfl
@[simp] theorem raise_fbH : (raise e s).fbH = s.fbH := rfl
@[simp] theorem raise_cur : (raise e s).cur = s.cur := rfl
@[simp] theorem raise_lineLen : (raise e s).lineLen = s.lineLen := rfl
@[simp] theorem raise_lineNo : (raise e s).lineNo = s.lineNo := rfl
@[simp] theorem raise_img : (raise e s).img = s.img := rfl
@[simp] theorem raise_fb : (raise e s).fb = s.fb := rfl
@[simp] theorem raise_lb : (raise e s).lb = s.lb := rfl
@[simp] theorem raise_rst : (raise e s).rst = s.rst := rfl
@[simp] theorem raise_platform : (raise e s).platform = s.platform := rfl
@[simp] theorem raise_schedule : (raise e s).schedule = s.schedule := rfl
@[simp] theorem raise_rdata : (raise e s).rdata = s.rdata := rfl
@[simp] theorem raise_draws : (raise e s).draws = s.draws := rfl
@[simp] theorem raise_errLog : (raise e s).errLog = e :: s.errLog := rfl
@[simp] theorem raise_lines : (raise e s).lines = s.lines := rfl

end

section
variable (s : State)

@[simp] theorem clearError_busy : (clearError s).busy = s.busy := rfl
@[simp] theorem clearError_pending : (clearError s).pending = s.pending := rfl
@[simp] theorem clearError_err : (clearError s).err = false := rfl
@[simp] theorem clearError_errCode : (clearError s).errCode = 0 := rfl
@[simp] theorem clearError_eos : (clearError s).eos = s.eos := rfl
@[simp] theorem clearError_lineValid : (clearError s).lineValid = s.lineValid := rfl
@[simp] theorem clearError_ctrl : (clearError s).ctrl = s.ctrl := rfl
@[simp] theorem clearError_imgW : (clearError s).imgW = s.imgW := rfl
@[simp] theorem clearError_imgH : (clearError s).imgH = s.imgH := rfl
@[simp] theorem clearError_imgC : (clearError s).imgC = s.imgC := rfl
@[simp] theorem clearError_resCode : (clearError s).resCode = s.resCode := rfl
@[simp] theorem clearError_resDelta : (clearError s).resDelta = s.resDelta := rfl
@[simp] theorem clearError_bal : (clearError s).bal = s.bal := rfl
@[simp] theorem clearError_fbW : (clearError s).fbW = s.fbW := rfl
@[simp] theorem clearError_fbH : (clearError s).fbH = s.fbH := rfl
@[simp] theorem clearError_cur : (clearError s).cur = s.cur := rfl
@[simp] theorem clearError_lineLen : (clearError s).lineLen = s.lineLen := rfl
@[simp] theorem clearError_lineNo : (clearError s).lineNo = s.lineNo := rfl
@[simp] theorem clearError_img : (clearError s).img = s.img := rfl
@[simp] theorem clearError_fb : (clearError s).fb = s.fb := rfl
@[simp] theorem clearError_lb : (clearError s).lb = s.lb := rfl
@[simp] theorem clearError_rst : (clearError s).rst = s.rst := rfl
@[simp] theorem clearError_platform : (clearError s).platform = s.platform := rfl
@[simp] theorem clearError_schedule : (clearError s).schedule = s.schedule := rfl
@[simp] theorem clearError_rdata : (clearError s).rdata = s.rdata := rfl
@[simp] theorem clearError_draws : (clearError s).draws = s.draws := rfl
@[simp] theorem clearError_errLog : (clearError s).errLog = s.errLog := rfl
@[simp] theorem clearError_lines : (clearError s).lines = s.lines := rfl

end

section
variable (s : State)

@[simp] theorem resetRegisters_busy : (resetRegisters s).busy = false := rfl
@[simp] theorem resetRegisters_pending : (resetRegisters s).pending = 0 := rfl
@[simp] theorem resetRegisters_err : (resetRegisters s).err = false := rfl
@[simp] theorem resetRegisters_errCode : (resetRegisters s).errCode = 0 := rfl
@[simp] theorem resetRegisters_eos : (resetRegisters s).eos = false := rfl
@[simp] theorem resetRegisters_lineValid : (resetRegisters s).lineValid = false := rfl
@[simp] theorem resetRegisters_ctrl : (resetRegisters s).ctrl = 0 := rfl
@[simp] theorem resetRegisters_imgW : (resetRegisters s).imgW = 0 := rfl
@[simp] theorem resetRegisters_imgH : (resetRegisters s).imgH = 0 := rfl
@[simp] theorem resetRegisters_imgC : (resetRegisters s).imgC = 0 := rfl
@[simp] theorem resetRegisters_resCode : (resetRegisters s).resCode = 0 := rfl
@[simp] theorem resetRegisters_resDelta : (resetRegisters s).resDelta = 0 := rfl
@[simp] theorem resetRegisters_bal : (resetRegisters s).bal = ⟨0, 0, 0⟩ := rfl
@[simp] theorem resetRegisters_fbW : (resetRegisters s).fbW = 0 := rfl
@[simp] theorem resetRegisters_fbH : (resetRegisters s).fbH = 0 := rfl
@[simp] theorem resetRegisters_cur : (resetRegisters s).cur = 0 := rfl
@[simp] theorem resetRegisters_lineLen : (resetRegisters s).lineLen = 0 := rfl
@[simp] theorem resetRegisters_lineNo : (resetRegisters s).lineNo = 0 := rfl
@[simp] theorem resetRegisters_img : (resetRegisters s).img = s.img := rfl
@[simp] theorem resetRegisters_fb : (resetRegisters s).fb = s.fb := rfl
@[simp] theorem resetRegisters_lb : (resetRegisters s).lb = s.lb := rfl
@[simp] theorem resetRegisters_rst : (resetRegisters s).rst = s.rst := rfl
@[simp] theorem resetRegisters_platform : (resetRegisters s).platform = s.platform := rfl
@[simp] theorem resetRegisters_schedule : (resetRegisters s).schedule = s.schedule := rfl
@[simp] theorem resetRegisters_rdata : (resetRegisters s).rdata = s.rdata := rfl
@[simp] theorem resetRegisters_draws : (resetRegisters s).draws = s.draws := rfl
@[simp] theorem resetRegisters_errLog : (resetRegisters s).errLog = s.errLog := rfl
@[simp] theorem resetRegisters_lines : (resetRegisters s).lines = s.lines := rfl

end

section
variable (s : State)

@[simp] theorem hardReset_busy : (hardReset s).busy = false := rfl
@[simp] theorem hardReset_pending : (hardReset s).pending = 0 := rfl
@[simp] theorem hardReset_err : (hardReset s).err = false := rfl
@[simp] theorem hardReset_errCode : (hardReset s).errCode = 0 := rfl
@[simp] theorem hardReset_eos : (hardReset s).eos = false := rfl
@[simp] theorem hardReset_lineValid : (hardReset s).lineValid = false := rfl
@[simp] theorem hardReset_ctrl : (hardReset s).ctrl = 0 := rfl
@[simp] theorem hardReset_imgW : (hardReset s).imgW = 0 := rfl
@[simp] theorem hardReset_imgH : (hardReset s).imgH = 0 := rfl
@[simp] theorem hardReset_imgC : (hardReset s).imgC = 0 := rfl
@[simp] theorem hardReset_resCode : (hardReset s).resCode = 0 := rfl
@[simp] theorem hardReset_resDelta : (hardReset s).resDelta = 0 := rfl
@[simp] theorem hardReset_bal : (hardReset s).bal = ⟨0, 0, 0⟩ := rfl
@[simp] theorem hardReset_fbW : (hardReset s).fbW = 0 := rfl
@[simp] theorem hardReset_fbH : (hardReset s).fbH = 0 := rfl
@[simp] theorem hardReset_cur : (hardReset s).cur = 0 := rfl
@[simp] theorem hardReset_lineLen : (hardReset s).lineLen = 0 := rfl
@[simp] theorem hardReset_lineNo : (hardReset s).lineNo = 0 := rfl
@[simp] theorem hardReset_img : (hardReset s).img = [] := rfl
@[simp] theorem hardReset_fb : (hardReset s).fb = [] := rfl
@[simp] theorem hardReset_lb : (hardReset s).lb = [] := rfl
@[simp] theorem hardReset_rst : (hardReset s).rst = true := rfl
@[simp] theorem hardReset_platform : (hardReset s).platform = s.platform := rfl
@[simp] theorem hardReset_schedule : (hardReset s).schedule = s.schedule := rfl
@[simp] theorem hardReset_rdata : (hardReset s).rdata = s.rdata := rfl
@[simp] theorem hardReset_draws : (hardReset s).draws = s.draws := rfl
@[simp] theorem hardReset_errLog : (hardReset s).errLog = s.errLog := rfl
@[simp] theorem hardReset_lines : (hardReset s).lines = s.lines := rfl

end

section
variable (w h : BitVec 12) (cells : List SymRow) (b : Tri (BitVec 8)) (s : State)

@[simp] theorem publish_busy : (publish w h cells b s).busy = s.busy := rfl
@[simp] theorem publish_pending : (publish w h cells b s).pending = s.pending := rfl
@[simp] theorem publish_err : (publish w h cells b s).err = s.err := rfl
@[simp] theorem publish_errCode : (publish w h cells b s).errCode = s.errCode := rfl
@[simp] theorem publish_eos : (publish w h cells b s).eos = false := rfl
@[simp] theorem publish_lineValid : (publish w h cells b s).lineValid = false := rfl
@[simp] theorem publish_ctrl : (publish w h cells b s).ctrl = s.ctrl := rfl
@[simp] theorem publish_imgW : (publish w h cells b s).imgW = s.imgW := rfl
@[simp] theorem publish_imgH : (publish w h cells b s).imgH = s.imgH := rfl
@[simp] theorem publish_imgC : (publish w h cells b s).imgC = s.imgC := rfl
@[simp] theorem publish_resCode : (publish w h cells b s).resCode = s.resCode := rfl
@[simp] theorem publish_resDelta : (publish w h cells b s).resDelta = s.resDelta := rfl
@[simp] theorem publish_bal : (publish w h cells b s).bal = b := rfl
@[simp] theorem publish_fbW : (publish w h cells b s).fbW = w := rfl
@[simp] theorem publish_fbH : (publish w h cells b s).fbH = h := rfl
@[simp] theorem publish_cur : (publish w h cells b s).cur = 0 := rfl
@[simp] theorem publish_lineLen : (publish w h cells b s).lineLen = 0 := rfl
@[simp] theorem publish_lineNo : (publish w h cells b s).lineNo = 0 := rfl
@[simp] theorem publish_img : (publish w h cells b s).img = s.img := rfl
@[simp] theorem publish_fb : (publish w h cells b s).fb = storeFrame cells s.fb := rfl
@[simp] theorem publish_lb : (publish w h cells b s).lb = s.lb := rfl
@[simp] theorem publish_rst : (publish w h cells b s).rst = s.rst := rfl
@[simp] theorem publish_platform : (publish w h cells b s).platform = s.platform := rfl
@[simp] theorem publish_schedule : (publish w h cells b s).schedule = s.schedule := rfl
@[simp] theorem publish_rdata : (publish w h cells b s).rdata = s.rdata := rfl
@[simp] theorem publish_draws : (publish w h cells b s).draws = s.draws := rfl
@[simp] theorem publish_errLog : (publish w h cells b s).errLog = s.errLog := rfl
@[simp] theorem publish_lines : (publish w h cells b s).lines = s.lines := rfl

end

section
variable (s : State)

@[simp] theorem endOfStream_busy : (endOfStream s).busy = s.busy := rfl
@[simp] theorem endOfStream_pending : (endOfStream s).pending = s.pending := rfl
@[simp] theorem endOfStream_err : (endOfStream s).err = s.err := rfl
@[simp] theorem endOfStream_errCode : (endOfStream s).errCode = s.errCode := rfl
@[simp] theorem endOfStream_eos : (endOfStream s).eos = true := rfl
@[simp] theorem endOfStream_lineValid : (endOfStream s).lineValid = false := rfl
@[simp] theorem endOfStream_ctrl : (endOfStream s).ctrl = s.ctrl := rfl
@[simp] theorem endOfStream_imgW : (endOfStream s).imgW = s.imgW := rfl
@[simp] theorem endOfStream_imgH : (endOfStream s).imgH = s.imgH := rfl
@[simp] theorem endOfStream_imgC : (endOfStream s).imgC = s.imgC := rfl
@[simp] theorem endOfStream_resCode : (endOfStream s).resCode = s.resCode := rfl
@[simp] theorem endOfStream_resDelta : (endOfStream s).resDelta = s.resDelta := rfl
@[simp] theorem endOfStream_bal : (endOfStream s).bal = s.bal := rfl
@[simp] theorem endOfStream_fbW : (endOfStream s).fbW = s.fbW := rfl
@[simp] theorem endOfStream_fbH : (endOfStream s).fbH = s.fbH := rfl
@[simp] theorem endOfStream_cur : (endOfStream s).cur = s.cur := rfl
@[simp] theorem endOfStream_lineLen : (endOfStream s).lineLen = 0 := rfl
@[simp] theorem endOfStream_lineNo : (endOfStream s).lineNo = s.lineNo := rfl
@[simp] theorem endOfStream_img : (endOfStream s).img = s.img := rfl
@[simp] theorem endOfStream_fb : (endOfStream s).fb = s.fb := rfl
@[simp] theorem endOfStream_lb : (endOfStream s).lb = s.lb := rfl
@[simp] theorem endOfStream_rst : (endOfStream s).rst = s.rst := rfl
@[simp] theorem endOfStream_platform : (endOfStream s).platform = s.platform := rfl
@[simp] theorem endOfStream_schedule : (endOfStream s).schedule = s.schedule := rfl
@[simp] theorem endOfStream_rdata : (endOfStream s).rdata = s.rdata := rfl
@[simp] theorem endOfStream_draws : (endOfStream s).draws = s.draws := rfl
@[simp] theorem endOfStream_errLog : (endOfStream s).errLog = s.errLog := rfl
@[simp] theorem endOfStream_lines : (endOfStream s).lines = .endOfStream :: s.lines := rfl

end

section
variable (r : BitVec 12) (cells : SymRow) (s : State)

@[simp] theorem serveRow_busy : (serveRow r cells s).busy = s.busy := rfl
@[simp] theorem serveRow_pending : (serveRow r cells s).pending = s.pending := rfl
@[simp] theorem serveRow_err : (serveRow r cells s).err = s.err := rfl
@[simp] theorem serveRow_errCode : (serveRow r cells s).errCode = s.errCode := rfl
@[simp] theorem serveRow_eos : (serveRow r cells s).eos = false := rfl
@[simp] theorem serveRow_lineValid : (serveRow r cells s).lineValid = true := rfl
@[simp] theorem serveRow_ctrl : (serveRow r cells s).ctrl = s.ctrl := rfl
@[simp] theorem serveRow_imgW : (serveRow r cells s).imgW = s.imgW := rfl
@[simp] theorem serveRow_imgH : (serveRow r cells s).imgH = s.imgH := rfl
@[simp] theorem serveRow_imgC : (serveRow r cells s).imgC = s.imgC := rfl
@[simp] theorem serveRow_resCode : (serveRow r cells s).resCode = s.resCode := rfl
@[simp] theorem serveRow_resDelta : (serveRow r cells s).resDelta = s.resDelta := rfl
@[simp] theorem serveRow_bal : (serveRow r cells s).bal = s.bal := rfl
@[simp] theorem serveRow_fbW : (serveRow r cells s).fbW = s.fbW := rfl
@[simp] theorem serveRow_fbH : (serveRow r cells s).fbH = s.fbH := rfl
@[simp] theorem serveRow_cur : (serveRow r cells s).cur = nextCur s r := rfl
@[simp] theorem serveRow_lineLen : (serveRow r cells s).lineLen = s.fbW := rfl
@[simp] theorem serveRow_lineNo : (serveRow r cells s).lineNo = r := rfl
@[simp] theorem serveRow_img : (serveRow r cells s).img = s.img := rfl
@[simp] theorem serveRow_fb : (serveRow r cells s).fb = s.fb := rfl
@[simp] theorem serveRow_lb : (serveRow r cells s).lb = overwriteAt 0 cells s.lb := rfl
@[simp] theorem serveRow_rst : (serveRow r cells s).rst = s.rst := rfl
@[simp] theorem serveRow_platform : (serveRow r cells s).platform = s.platform := rfl
@[simp] theorem serveRow_schedule : (serveRow r cells s).schedule = s.schedule := rfl
@[simp] theorem serveRow_rdata : (serveRow r cells s).rdata = s.rdata := rfl
@[simp] theorem serveRow_draws : (serveRow r cells s).draws = s.draws := rfl
@[simp] theorem serveRow_errLog : (serveRow r cells s).errLog = s.errLog := rfl
@[simp] theorem serveRow_lines : (serveRow r cells s).lines = .line r cells :: s.lines := rfl

end

section
variable (w : Word) (s : State)

@[simp] theorem answer_busy : (answer w s).busy = s.busy := rfl
@[simp] theorem answer_pending : (answer w s).pending = s.pending := rfl
@[simp] theorem answer_err : (answer w s).err = s.err := rfl
@[simp] theorem answer_errCode : (answer w s).errCode = s.errCode := rfl
@[simp] theorem answer_eos : (answer w s).eos = s.eos := rfl
@[simp] theorem answer_lineValid : (answer w s).lineValid = s.lineValid := rfl
@[simp] theorem answer_ctrl : (answer w s).ctrl = s.ctrl := rfl
@[simp] theorem answer_imgW : (answer w s).imgW = s.imgW := rfl
@[simp] theorem answer_imgH : (answer w s).imgH = s.imgH := rfl
@[simp] theorem answer_imgC : (answer w s).imgC = s.imgC := rfl
@[simp] theorem answer_resCode : (answer w s).resCode = s.resCode := rfl
@[simp] theorem answer_resDelta : (answer w s).resDelta = s.resDelta := rfl
@[simp] theorem answer_bal : (answer w s).bal = s.bal := rfl
@[simp] theorem answer_fbW : (answer w s).fbW = s.fbW := rfl
@[simp] theorem answer_fbH : (answer w s).fbH = s.fbH := rfl
@[simp] theorem answer_cur : (answer w s).cur = s.cur := rfl
@[simp] theorem answer_lineLen : (answer w s).lineLen = s.lineLen := rfl
@[simp] theorem answer_lineNo : (answer w s).lineNo = s.lineNo := rfl
@[simp] theorem answer_img : (answer w s).img = s.img := rfl
@[simp] theorem answer_fb : (answer w s).fb = s.fb := rfl
@[simp] theorem answer_lb : (answer w s).lb = s.lb := rfl
@[simp] theorem answer_rst : (answer w s).rst = s.rst := rfl
@[simp] theorem answer_platform : (answer w s).platform = s.platform := rfl
@[simp] theorem answer_schedule : (answer w s).schedule = s.schedule := rfl
@[simp] theorem answer_rdata : (answer w s).rdata = w := rfl
@[simp] theorem answer_draws : (answer w s).draws = s.draws := rfl
@[simp] theorem answer_errLog : (answer w s).errLog = s.errLog := rfl
@[simp] theorem answer_lines : (answer w s).lines = s.lines := rfl

end

section
variable (free : Nat → Word) (s : State)

@[simp] theorem answerDraw_busy : (answerDraw free s).busy = s.busy := rfl
@[simp] theorem answerDraw_pending : (answerDraw free s).pending = s.pending := rfl
@[simp] theorem answerDraw_err : (answerDraw free s).err = s.err := rfl
@[simp] theorem answerDraw_errCode : (answerDraw free s).errCode = s.errCode := rfl
@[simp] theorem answerDraw_eos : (answerDraw free s).eos = s.eos := rfl
@[simp] theorem answerDraw_lineValid : (answerDraw free s).lineValid = s.lineValid := rfl
@[simp] theorem answerDraw_ctrl : (answerDraw free s).ctrl = s.ctrl := rfl
@[simp] theorem answerDraw_imgW : (answerDraw free s).imgW = s.imgW := rfl
@[simp] theorem answerDraw_imgH : (answerDraw free s).imgH = s.imgH := rfl
@[simp] theorem answerDraw_imgC : (answerDraw free s).imgC = s.imgC := rfl
@[simp] theorem answerDraw_resCode : (answerDraw free s).resCode = s.resCode := rfl
@[simp] theorem answerDraw_resDelta : (answerDraw free s).resDelta = s.resDelta := rfl
@[simp] theorem answerDraw_bal : (answerDraw free s).bal = s.bal := rfl
@[simp] theorem answerDraw_fbW : (answerDraw free s).fbW = s.fbW := rfl
@[simp] theorem answerDraw_fbH : (answerDraw free s).fbH = s.fbH := rfl
@[simp] theorem answerDraw_cur : (answerDraw free s).cur = s.cur := rfl
@[simp] theorem answerDraw_lineLen : (answerDraw free s).lineLen = s.lineLen := rfl
@[simp] theorem answerDraw_lineNo : (answerDraw free s).lineNo = s.lineNo := rfl
@[simp] theorem answerDraw_img : (answerDraw free s).img = s.img := rfl
@[simp] theorem answerDraw_fb : (answerDraw free s).fb = s.fb := rfl
@[simp] theorem answerDraw_lb : (answerDraw free s).lb = s.lb := rfl
@[simp] theorem answerDraw_rst : (answerDraw free s).rst = s.rst := rfl
@[simp] theorem answerDraw_platform : (answerDraw free s).platform = s.platform := rfl
@[simp] theorem answerDraw_schedule : (answerDraw free s).schedule = s.schedule := rfl
@[simp] theorem answerDraw_rdata : (answerDraw free s).rdata = free s.draws := rfl
@[simp] theorem answerDraw_draws : (answerDraw free s).draws = s.draws + 1 := rfl
@[simp] theorem answerDraw_errLog : (answerDraw free s).errLog = s.errLog := rfl
@[simp] theorem answerDraw_lines : (answerDraw free s).lines = s.lines := rfl

end

section
variable (s : State)

@[simp] theorem State.popTurn_busy : (s.popTurn).busy = s.busy := rfl
@[simp] theorem State.popTurn_pending : (s.popTurn).pending = s.pending := rfl
@[simp] theorem State.popTurn_err : (s.popTurn).err = s.err := rfl
@[simp] theorem State.popTurn_errCode : (s.popTurn).errCode = s.errCode := rfl
@[simp] theorem State.popTurn_eos : (s.popTurn).eos = s.eos := rfl
@[simp] theorem State.popTurn_lineValid : (s.popTurn).lineValid = s.lineValid := rfl
@[simp] theorem State.popTurn_ctrl : (s.popTurn).ctrl = s.ctrl := rfl
@[simp] theorem State.popTurn_imgW : (s.popTurn).imgW = s.imgW := rfl
@[simp] theorem State.popTurn_imgH : (s.popTurn).imgH = s.imgH := rfl
@[simp] theorem State.popTurn_imgC : (s.popTurn).imgC = s.imgC := rfl
@[simp] theorem State.popTurn_resCode : (s.popTurn).resCode = s.resCode := rfl
@[simp] theorem State.popTurn_resDelta : (s.popTurn).resDelta = s.resDelta := rfl
@[simp] theorem State.popTurn_bal : (s.popTurn).bal = s.bal := rfl
@[simp] theorem State.popTurn_fbW : (s.popTurn).fbW = s.fbW := rfl
@[simp] theorem State.popTurn_fbH : (s.popTurn).fbH = s.fbH := rfl
@[simp] theorem State.popTurn_cur : (s.popTurn).cur = s.cur := rfl
@[simp] theorem State.popTurn_lineLen : (s.popTurn).lineLen = s.lineLen := rfl
@[simp] theorem State.popTurn_lineNo : (s.popTurn).lineNo = s.lineNo := rfl
@[simp] theorem State.popTurn_img : (s.popTurn).img = s.img := rfl
@[simp] theorem State.popTurn_fb : (s.popTurn).fb = s.fb := rfl
@[simp] theorem State.popTurn_lb : (s.popTurn).lb = s.lb := rfl
@[simp] theorem State.popTurn_rst : (s.popTurn).rst = s.rst := rfl
@[simp] theorem State.popTurn_platform : (s.popTurn).platform = s.platform := rfl
@[simp] theorem State.popTurn_schedule : (s.popTurn).schedule = s.schedule.tail := rfl
@[simp] theorem State.popTurn_rdata : (s.popTurn).rdata = s.rdata := rfl
@[simp] theorem State.popTurn_draws : (s.popTurn).draws = s.draws := rfl
@[simp] theorem State.popTurn_errLog : (s.popTurn).errLog = s.errLog := rfl
@[simp] theorem State.popTurn_lines : (s.popTurn).lines = s.lines := rfl

end

end Sys2Proof.Machine
end

