-- ==== Sys2Proof/Laws/Coder.lean ====
section
/-! SUPPORT. The small lemmas of the operand forms (30_encoding R126), of the bit utilities and of the coder (40_coder), and
what each of its steps can do. -/

namespace Sys2Proof.Machine

/-! ## Operand forms -/

@[simp] theorem index3?_eq_none_iff (f : BitVec 2) : index3? f = none ↔ f = 3 := by
  revert f; decide

/-- A legal field names the channel, or the state index, of its value. -/
theorem index3?_of_ne_three {f : BitVec 2} (h : f ≠ 3) : ∃ c, index3? f = some c ∧ c.val = f.toNat := by
  revert f; decide

/-- The field of a channel. -/
theorem index3?_ofNat (c : Fin 3) : index3? (BitVec.ofNat 2 c.val) = some c := by
  revert c; decide

theorem stateIndex_of_neg {b : Int} (h : b < 0) : stateIndex b = 0 := by simp [stateIndex, h]

@[simp] theorem stateIndex_zero : stateIndex 0 = 1 := rfl

theorem stateIndex_of_pos {b : Int} (h : 0 < b) : stateIndex b = 2 := by
  simp [stateIndex, show ¬ b < 0 by omega, show b ≠ 0 by omega]

/-- A balance falls under one of the three states (R200). -/
theorem stateIndex_cases (b : Int) :
    (b < 0 ∧ stateIndex b = 0) ∨ (b = 0 ∧ stateIndex b = 1) ∨ (0 < b ∧ stateIndex b = 2) := by
  rcases lt_trichotomy b 0 with h | h | h
  · exact .inl ⟨h, stateIndex_of_neg h⟩
  · exact .inr (.inl ⟨h, by rw [h]; rfl⟩)
  · exact .inr (.inr ⟨h, stateIndex_of_pos h⟩)

/-- An 8-bit value read as a signed integer and encoded again. -/
@[simp] theorem enc8_signed8 (v : BitVec 8) : enc8 (signed8 v) = v := BitVec.ofInt_toInt

/-- A signed integer in the range of 8 bits, encoded and read again. -/
theorem signed8_enc8 {v : Int} (h1 : -128 ≤ v) (h2 : v ≤ 127) : signed8 (enc8 v) = v := by
  simp only [signed8, enc8, BitVec.toInt_ofInt]
  rw [Int.bmod_def]; omega

/-- A signed integer in the range of 32 bits, encoded and read again. -/
theorem toInt_sext32 {v : Int} (h1 : -2147483648 ≤ v) (h2 : v ≤ 2147483647) : (sext32 v).toInt = v := by
  simp only [sext32, BitVec.toInt_ofInt]
  rw [Int.bmod_def]; omega

/-- The range of an 8-bit counter. -/
theorem signed8_range (v : BitVec 8) : -128 ≤ signed8 v ∧ signed8 v ≤ 127 := by
  have h1 := BitVec.le_toInt v
  have h2 := BitVec.toInt_lt (x := v)
  simp only [signed8]; omega

/-! ## Triples -/

@[simp] theorem Tri.get_set_same {α : Type} (t : Tri α) (c : Fin 3) (a : α) : (t.set c a).get c = a := by
  fin_cases c <;> rfl

theorem Tri.get_set_other {α : Type} (t : Tri α) {c d : Fin 3} (a : α) (h : d ≠ c) :
    (t.set c a).get d = t.get d := by
  fin_cases c <;> fin_cases d <;> first | rfl | exact absurd rfl h

@[simp] theorem Tri.get_ofFn {α : Type} (f : Fin 3 → α) (c : Fin 3) : (Tri.ofFn f).get c = f c := by
  fin_cases c <;> rfl

@[simp] theorem Tri.get_all {α : Type} (a : α) (c : Fin 3) : (Tri.all a).get c = a := by
  fin_cases c <;> rfl

/-- Two triples with the same entries are the same. -/
theorem Tri.ext_get {α : Type} {t u : Tri α} (h : ∀ c, t.get c = u.get c) : t = u := by
  cases t; cases u
  simp only [Tri.mk.injEq]
  exact ⟨h 0, h 1, h 2⟩

/-! ## Bit sequences -/

@[simp] theorem length_toBits {n : Nat} (v : BitVec n) : (toBits v).length = n := by simp [toBits]

@[simp] theorem length_notBits (l : List Bool) : (notBits l).length = l.length := by simp [notBits]

@[simp] theorem length_chain (x p : Bool) (l : List Bool) : (chain x p l).length = l.length := by
  induction l generalizing p with
  | nil => rfl
  | cons d l ih => simp [chain, ih]

theorem popcount_le (l : List Bool) : popcount l ≤ l.length := List.count_le_length

/-- A bit sequence and its inverse share their ones between them. -/
theorem popcount_notBits (l : List Bool) : popcount (notBits l) + popcount l = l.length := by
  induction l with
  | nil => rfl
  | cons b l ih =>
    simp only [popcount, notBits, List.map_cons, List.count_cons, List.length_cons] at ih ⊢
    cases b <;> simp <;> omega

/-- An integer made of n bits is below 2^n (R161). -/
theorem fromBits_lt (l : List Bool) : fromBits l < 2 ^ l.length := by
  induction l with
  | nil => simp [fromBits]
  | cons b l ih =>
    have : b.toNat ≤ 1 := by cases b <;> simp
    simp only [fromBits, List.length_cons, pow_succ]; omega

/-! ## The coder -/

@[simp] theorem length_qData (p : Byte) : (qData p).length = 8 := by
  have h := length_toBits p
  unfold qData
  split
  · next heq => simp [heq] at h
  · next d ds heq => simpa [heq] using h

/-- The data bits of the code word have the length of q. -/
@[simp] theorem length_qo_dcBalance (q : List Bool) (b8 : Bool) (b : Int) :
    (dcBalance q b8 b).qo.length = q.length := by
  simp only [dcBalance]
  split
  · split <;> simp
  · split <;> simp

/-- DC balancing reads the balance through its sign only (R166). -/
theorem dcBalance_congr (q : List Bool) (b8 : Bool) {b b' : Int} (h0 : b = 0 ↔ b' = 0) (hp : 0 < b ↔ 0 < b')
    (hn : b < 0 ↔ b' < 0) : dcBalance q b8 b = dcBalance q b8 b' := by
  simp only [dcBalance, h0, gt_iff_lt, hp, hn]

/-- A property checked on the 768 combinations of a pixel and a balance of -1, 0 or 1 holds of every pixel and balance sign. -/
theorem forall_pixel_sign {P : Byte → Int → Bool}
    (h : ((List.range 256).all fun n =>
      P (BitVec.ofNat 8 n) (-1) && P (BitVec.ofNat 8 n) 0 && P (BitVec.ofNat 8 n) 1) = true)
    (p : Byte) (b : Int) : P p b.sign = true := by
  have hp := List.all_eq_true.1 h p.toNat (by simpa using p.isLt)
  simp only [BitVec.ofNat_toNat, BitVec.setWidth_eq, Bool.and_eq_true] at hp
  rcases lt_trichotomy b 0 with hb | hb | hb
  · rw [Int.sign_eq_neg_one_of_neg hb]; exact hp.1.1
  · rw [hb]; exact hp.1.2
  · rw [Int.sign_eq_one_of_pos hb]; exact hp.2

/-- A code word has bits 15:10 zero (R163, R91). -/
theorem tmdsCode_wf (p : Byte) (b : Int) : SymWf (tmdsCode p b).1 := by
  have h := fromBits_lt ((dcBalance (qData p) (q8 p) b).qo ++ [q8 p, (dcBalance (qData p) (q8 p) b).b9])
  simp only [List.length_append, length_qo_dcBalance, length_qData, List.length_cons, List.length_nil] at h
  simp only [SymWf, tmdsCode, BitVec.toNat_ofNat]
  omega

/-- Every entry of the table is a well-formed symbol (R204). -/
theorem lutCode_wf (p : Byte) (s : Fin 3) : SymWf (lutCode p s) := tmdsCode_wf _ _

/-- The control codes are well-formed symbols (R245). -/
theorem blankCode_wf (g : Geometry) (x y : Nat) : SymWf (blankCode g x y) := by
  unfold blankCode; split <;> simp [SymWf, codeCorner, codeTopBottom, codeLeftRight, codeCenter]

end Sys2Proof.Machine
end

