-- ==== Sys2Proof/Laws/Memory.lean ====
section
/-! SUPPORT. The laws of IMG (10_state R48, 20_memory R83): read after write, other cells, and that every write keeps the
canonical form; and the laws of the cell writes of FB and LB. -/

namespace Sys2Proof.Machine

/-! ## IMG -/

@[simp] theorem Memory.read?_nil (i : Nat) : Memory.read? [] i = none := rfl

@[simp] theorem Memory.wf_nil : Memory.wf [] = true := rfl

/-- A write is read back. -/
@[simp] theorem Memory.read?_write_same (m : Memory) (i : Nat) (b : Byte) :
    Memory.read? (Memory.write m i b) i = some b := by
  induction m with
  | nil => simp [Memory.write, Memory.read?]
  | cons cell m ih =>
    obtain ⟨j, c⟩ := cell
    simp only [Memory.write]
    split
    · simp [Memory.read?]
    · split
      · simp [Memory.read?]
      · simp_all [Memory.read?]

/-- A write leaves every other cell alone. -/
theorem Memory.read?_write_other (m : Memory) {i j : Nat} (b : Byte) (h : j ≠ i) :
    Memory.read? (Memory.write m i b) j = Memory.read? m j := by
  induction m with
  | nil => simp [Memory.write, Memory.read?, h]
  | cons cell m ih =>
    obtain ⟨k, c⟩ := cell
    simp only [Memory.write]
    split
    · simp [Memory.read?, h]
    · split
      · next hk => subst hk; simp [Memory.read?, h]
      · simp [Memory.read?, ih]

/-- Which cells a write leaves listed: the one written, and old ones. -/
theorem Memory.mem_write {m : Memory} {i : Nat} {b : Byte} {cell : Host.Cell}
    (h : cell ∈ Memory.write m i b) : cell = (i, b) ∨ cell ∈ m := by
  induction m with
  | nil => simpa [Memory.write] using h
  | cons c m ih =>
    simp only [Memory.write] at h
    split at h
    · simpa using h
    · split at h
      · simp only [List.mem_cons] at h ⊢; tauto
      · simp only [List.mem_cons] at h ⊢
        rcases h with h | h
        · exact .inr (.inl h)
        · rcases ih h with h | h <;> tauto

/-- The canonical form, one cell at a time. -/
theorem Memory.wf_cons (cell : Host.Cell) (m : Memory) :
    Memory.wf (cell :: m) = true ↔ (∀ c ∈ m, cell.1 < c.1) ∧ Memory.wf m = true := by
  induction m generalizing cell with
  | nil => simp [Memory.wf]
  | cons d m ih =>
    simp only [Memory.wf, Bool.and_eq_true, decide_eq_true_eq, ih d, List.mem_cons]
    constructor
    · rintro ⟨h, hd, hm⟩
      refine ⟨?_, hd, hm⟩
      rintro c (rfl | hc)
      · exact h
      · exact h.trans (hd c hc)
    · rintro ⟨h, hd, hm⟩
      exact ⟨h d (.inl rfl), hd, hm⟩

/-- Every write keeps the canonical form. -/
theorem Memory.wf_write {m : Memory} (i : Nat) (b : Byte) (h : Memory.wf m = true) :
    Memory.wf (Memory.write m i b) = true := by
  induction m with
  | nil => rfl
  | cons cell m ih =>
    obtain ⟨j, c⟩ := cell
    have hc := (Memory.wf_cons (j, c) m).1 h
    simp only [Memory.write]
    split
    · next hij =>
      refine (Memory.wf_cons _ _).2 ⟨?_, h⟩
      intro d hd
      rcases List.mem_cons.1 hd with rfl | hd
      · exact hij
      · exact hij.trans (hc.1 d hd)
    · split
      · next hij => subst hij; exact (Memory.wf_cons _ _).2 hc
      · next h1 h2 =>
        refine (Memory.wf_cons _ _).2 ⟨?_, ih hc.2⟩
        intro d hd
        rcases Memory.mem_write hd with rfl | hd
        · show j < i
          omega
        · exact hc.1 d hd

/-- A cell below every listed index is unwritten. -/
theorem Memory.read?_of_lt {m : Memory} {i : Nat} (h : ∀ c ∈ m, i < c.1) : Memory.read? m i = none := by
  induction m with
  | nil => rfl
  | cons cell m ih =>
    have h1 := h cell (by simp)
    simp only [Memory.read?]
    rw [if_neg (by omega), ih fun c hc => h c (by simp [hc])]

/-- In the canonical form equal contents are equal data. -/
theorem Memory.ext {m n : Memory} (hm : Memory.wf m = true) (hn : Memory.wf n = true)
    (h : ∀ i, Memory.read? m i = Memory.read? n i) : m = n := by
  induction m generalizing n with
  | nil =>
    cases n with
    | nil => rfl
    | cons d n => simpa [Memory.read?] using h d.1
  | cons c m ih =>
    have hcm := (Memory.wf_cons c m).1 hm
    cases n with
    | nil => simpa [Memory.read?] using h c.1
    | cons d n =>
      have hdn := (Memory.wf_cons d n).1 hn
      have key : c.1 = d.1 := by
        by_contra hne
        rcases Nat.lt_or_gt_of_ne hne with hlt | hlt
        · have := h c.1
          rw [Memory.read?_of_lt (m := d :: n)] at this
          · simp [Memory.read?] at this
          · intro e he
            rcases List.mem_cons.1 he with rfl | he
            · exact hlt
            · exact hlt.trans (hdn.1 e he)
        · have := h d.1
          rw [Memory.read?_of_lt (m := c :: m)] at this
          · simp [Memory.read?] at this
          · intro e he
            rcases List.mem_cons.1 he with rfl | he
            · exact hlt
            · exact hlt.trans (hcm.1 e he)
      have val : c.2 = d.2 := by simpa [Memory.read?, key] using h c.1
      have hcd : c = d := Prod.ext key val
      subst hcd
      congr 1
      refine ih hcm.2 hdn.2 fun i => ?_
      by_cases hi : i = c.1
      · subst hi; rw [Memory.read?_of_lt hcm.1, Memory.read?_of_lt hdn.1]
      · simpa [Memory.read?, hi] using h i

/-! ## FB and LB -/

@[simp] theorem length_overwriteAt_zero {α : Type} (new old : List α) :
    (overwriteAt 0 new old).length = max new.length old.length := by
  simp [overwriteAt]; omega

/-- Every element of an overwritten list is a new or an old one. -/
theorem mem_overwriteAt {α : Type} {off : Nat} {new old : List α} {a : α}
    (h : a ∈ overwriteAt off new old) : a ∈ new ∨ a ∈ old := by
  simp only [overwriteAt, List.mem_append] at h
  rcases h with (h | h) | h
  · exact .inr (List.mem_of_mem_take h)
  · exact .inl h
  · exact .inr (List.mem_of_mem_drop h)

/-- What an overwritten list holds, for a write that lies within the old list. -/
theorem getElem?_overwriteAt {α : Type} (off : Nat) (new old : List α) (hoff : off ≤ old.length) (i : Nat) :
    (overwriteAt off new old)[i]? =
      if off ≤ i ∧ i < off + new.length then new[i - off]? else old[i]? := by
  unfold overwriteAt
  rcases Nat.lt_or_ge i off with h | h
  · rw [if_neg (by omega), List.append_assoc, List.getElem?_append_left (by simp; omega),
      List.getElem?_take, if_pos h]
  · rcases Nat.lt_or_ge i (off + new.length) with h' | h'
    · rw [if_pos ⟨h, h'⟩, List.append_assoc, List.getElem?_append_right (by simp; omega),
        List.getElem?_append_left (by simp; omega)]
      congr 1
      simp; omega
    · rw [if_neg (by omega), List.getElem?_append_right (by simp; omega), List.getElem?_drop]
      congr 1
      simp; omega

/-- Row y of FB after a store: the new row over the old one (or over nothing), and old rows past the new frame. -/
theorem storeFrame_getElem? (new old : List SymRow) (y : Nat) :
    (storeFrame new old)[y]? =
      match new[y]?, old[y]? with
      | some r, some o => some (overwriteAt 0 r o)
      | some r, none => some r
      | none, o => o := by
  induction new generalizing old y with
  | nil => cases h : old[y]? <;> simp [storeFrame, h]
  | cons r rs ih =>
    cases old with
    | nil =>
      cases y with
      | zero => simp [storeFrame]
      | succ y => simpa [storeFrame] using ih [] y
    | cons o os =>
      cases y with
      | zero => simp [storeFrame]
      | succ y => simpa [storeFrame] using ih os y

/-- Storing a frame of non-empty rows keeps FB's canonical form: no row is empty. -/
theorem storeFrame_ne_nil {new old : List SymRow} {row : SymRow} (hnew : ∀ r ∈ new, r ≠ []) (hold : ∀ r ∈ old, r ≠ [])
    (h : row ∈ storeFrame new old) : row ≠ [] := by
  induction new generalizing old with
  | nil => exact hold row (by simpa [storeFrame] using h)
  | cons r rs ih =>
    have hr := hnew r (by simp)
    have hrs : ∀ q ∈ rs, q ≠ [] := fun q hq => hnew q (by simp [hq])
    cases old with
    | nil =>
      rcases List.mem_cons.1 h with rfl | h
      · exact hr
      · exact ih hrs (by simp) h
    | cons o os =>
      rcases List.mem_cons.1 h with rfl | h
      · simp [overwriteAt, hr]
      · exact ih hrs (fun q hq => hold q (by simp [hq])) h

/-- Every position in FB after a store is a new or an old one. -/
theorem mem_storeFrame {new old : List SymRow} {row : SymRow} (h : row ∈ storeFrame new old) {p : Tri Sym}
    (hp : p ∈ row) : (∃ r ∈ new, p ∈ r) ∨ (∃ r ∈ old, p ∈ r) := by
  induction new generalizing old with
  | nil => exact .inr ⟨row, by simpa [storeFrame] using h, hp⟩
  | cons r rs ih =>
    cases old with
    | nil =>
      rcases List.mem_cons.1 h with rfl | h
      · exact .inl ⟨row, by simp, hp⟩
      · rcases ih h with ⟨q, hq, hpq⟩ | ⟨q, hq, hpq⟩
        · exact .inl ⟨q, by simp [hq], hpq⟩
        · simp at hq
    | cons o os =>
      rcases List.mem_cons.1 h with rfl | h
      · rcases mem_overwriteAt hp with hp | hp
        · exact .inl ⟨r, by simp, hp⟩
        · exact .inr ⟨o, by simp, hp⟩
      · rcases ih h with ⟨q, hq, hpq⟩ | ⟨q, hq, hpq⟩
        · exact .inl ⟨q, by simp [hq], hpq⟩
        · exact .inr ⟨q, by simp [hq], hpq⟩

/-- A row of the frame held, when FB holds the frame. -/
theorem fbRow?_of_holdsFrame {s : State} (h : HoldsFrame s) {r : Nat} (hr : r < s.fbH.toNat) :
    ∃ cells, fbRow? s r = some cells ∧ cells.length = s.fbW.toNat := by
  obtain ⟨row, hrow, hlen⟩ := h r hr
  exact ⟨row.take s.fbW.toNat, by simp [fbRow?, hrow, hlen], by simp [hlen]⟩

/-- What a row of the frame held is: the first FB_W positions of a row of FB. -/
theorem fbRow?_spec {s : State} {r : Nat} {cells : SymRow} (h : fbRow? s r = some cells) :
    ∃ row, s.fb[r]? = some row ∧ s.fbW.toNat ≤ row.length ∧ cells = row.take s.fbW.toNat := by
  unfold fbRow? at h
  split at h
  · simp at h
  · next row hrow =>
    split at h
    · next hlen => exact ⟨row, hrow, hlen, by simpa using h.symm⟩
    · simp at h

end Sys2Proof.Machine
end

