-- ==== Sys2Proof/Laws/Frame.lean ====
section
/-! SUPPORT. What the composer's parts hold (43_frame): the source image, the coded rows, the overwritten rectangle. -/

namespace Sys2Proof.Machine

/-! ## The source image -/

/-- `allSome` answers exactly when nothing is missing. -/
theorem allSome_eq_some {α : Type} {l : List (Option α)} {as : List α} :
    allSome l = some as ↔ l = as.map some := by
  induction l generalizing as with
  | nil => cases as <;> simp [allSome]
  | cons o l ih =>
    cases o with
    | none => cases as <;> simp [allSome]
    | some a =>
      simp only [allSome]
      cases hl : allSome l with
      | none =>
        cases as with
        | nil => simp
        | cons b bs =>
          simp only [reduceCtorEq, false_iff, List.map_cons, List.cons.injEq, Option.some.injEq, not_and]
          rintro - h
          have := ih.2 h
          rw [hl] at this
          cases this
      | some bs =>
        cases as with
        | nil => simp
        | cons b cs =>
          simp only [Option.some.injEq, List.cons.injEq, List.map_cons]
          constructor
          · rintro ⟨rfl, rfl⟩; exact ⟨rfl, ih.1 hl⟩
          · rintro ⟨rfl, h⟩
            exact ⟨rfl, List.map_injective_iff.2 (Option.some_injective _) ((ih.1 hl).symm.trans h)⟩

/-- `allSome` is none exactly when something is missing. -/
theorem allSome_eq_none {α : Type} {l : List (Option α)} : allSome l = none ↔ none ∈ l := by
  induction l with
  | nil => simp [allSome]
  | cons o l ih =>
    cases o with
    | none => simp [allSome]
    | some a =>
      simp only [allSome, List.mem_cons, reduceCtorEq, false_or, ← ih]
      cases allSome l <;> simp

/-- The entries of a list that `allSome` reads from a range. -/
theorem allSome_range {α : Type} {n : Nat} {f : Nat → Option α} {as : List α}
    (h : allSome ((List.range n).map f) = some as) : as.length = n ∧ ∀ i < n, f i = as[i]? := by
  have h := allSome_eq_some.1 h
  have hlen : as.length = n := by simpa using (congrArg List.length h).symm
  refine ⟨hlen, fun i hi => ?_⟩
  have := congrArg (·[i]?) h
  simp only [List.getElem?_map, List.getElem?_range hi, Option.map_some] at this
  rw [List.getElem?_eq_getElem (by omega)] at this ⊢
  simpa using this

/-- A range whose every entry is there is read. -/
theorem allSome_range_isSome {α : Type} {n : Nat} {f : Nat → Option α} (h : ∀ i < n, (f i).isSome = true) :
    ∃ as, allSome ((List.range n).map f) = some as := by
  cases hr : allSome ((List.range n).map f) with
  | some as => exact ⟨as, rfl⟩
  | none =>
    obtain ⟨i, hi, hf⟩ := List.mem_map.1 (allSome_eq_none.1 hr)
    have := h i (List.mem_range.1 hi)
    rw [hf] at this
    cases this

/-- A source position that is read: its three pixels (R282). -/
theorem srcPosition_eq_some {img : Memory} {w ch y x : Nat} {p : Tri Byte} :
    srcPosition img w ch y x = some p ↔ ∀ c, srcPixel img w ch y x c = some (p.get c) := by
  unfold srcPosition
  constructor
  · intro h
    split at h
    · next a b c ha hb hc =>
      obtain rfl := Option.some.inj h
      intro d
      fin_cases d
      · exact ha
      · exact hb
      · exact hc
    · simp at h
  · intro h
    rw [h 0, h 1, h 2]
    rfl

/-- The source image: H rows of W positions, each the pixels SRC(y, x, 0..2) (R282). -/
theorem srcImage_spec {img : Memory} {w h ch : Nat} {rows : List (List (Tri Byte))}
    (hr : srcImage img w h ch = some rows) :
    rows.length = h ∧ ∀ y < h, ∃ row, rows[y]? = some row ∧ row.length = w ∧
      ∀ x < w, ∃ p, row[x]? = some p ∧ ∀ c, srcPixel img w ch y x c = some (p.get c) := by
  obtain ⟨hlen, hrow⟩ := allSome_range hr
  refine ⟨hlen, fun y hy => ?_⟩
  have hy' := hrow y hy
  rw [List.getElem?_eq_getElem (by omega)] at hy'
  obtain ⟨hw, hpos⟩ := allSome_range hy'
  refine ⟨_, List.getElem?_eq_getElem (by omega), hw, fun x hx => ?_⟩
  have hx' := hpos x hx
  rw [List.getElem?_eq_getElem (by omega)] at hx'
  exact ⟨_, List.getElem?_eq_getElem (by omega), srcPosition_eq_some.1 hx'⟩

/-- Every row of the source image has W positions. -/
theorem srcImage_row_length {img : Memory} {w h ch : Nat} {rows : List (List (Tri Byte))}
    (hr : srcImage img w h ch = some rows) : ∀ row ∈ rows, row.length = w := by
  intro row hrow
  obtain ⟨hlen, hspec⟩ := srcImage_spec hr
  obtain ⟨y, hy, rfl⟩ := List.mem_iff_getElem.1 hrow
  obtain ⟨row', h1, h2, -⟩ := hspec y (by omega)
  rw [List.getElem?_eq_getElem hy] at h1
  rw [Option.some.inj h1, h2]

/-- The index of a source pixel lies in the image (R90). -/
theorem srcIndex_lt {w h ch y x : Nat} (hy : y < h) (hx : x < w) {k : Nat} (hk : k < ch) :
    (y * w + x) * ch + k < w * h * ch := by
  have h1 : y * w + x < w * h := by
    calc y * w + x < y * w + w := by omega
      _ = (y + 1) * w := by ring
      _ ≤ h * w := Nat.mul_le_mul_right w hy
      _ = w * h := Nat.mul_comm h w
  calc (y * w + x) * ch + k < (y * w + x) * ch + ch := by omega
    _ = (y * w + x + 1) * ch := by ring
    _ ≤ w * h * ch := Nat.mul_le_mul_right ch h1

/-- An image whose cells have all been written is read (R282). -/
theorem srcImage_isSome {img : Memory} {w h ch : Nat} (hch : ch = 1 ∨ ch = 3)
    (hwr : ∀ i < w * h * ch, (Memory.read? img i).isSome = true) : ∃ rows, srcImage img w h ch = some rows := by
  refine allSome_range_isSome fun y hy => ?_
  obtain ⟨row, hrow⟩ : ∃ row, srcRow img w ch y = some row := by
    refine allSome_range_isSome fun x hx => ?_
    have hpix : ∀ c, ∃ b, srcPixel img w ch y x c = some b := by
      intro c
      refine Option.isSome_iff_exists.1 (hwr _ (srcIndex_lt hy hx ?_))
      rcases hch with rfl | rfl
      · simp
      · simp
    obtain ⟨a, ha⟩ := hpix 0
    obtain ⟨b, hb⟩ := hpix 1
    obtain ⟨c, hc⟩ := hpix 2
    simp [srcPosition, ha, hb, hc]
  simp [hrow]

/-! ## Coded rows -/

@[simp] theorem length_runCodes (b : Int) (ps : List Byte) : (runCodes b ps).length = ps.length := by
  induction ps generalizing b with
  | nil => rfl
  | cons p ps ih => simp [runCodes, ih]

@[simp] theorem length_rowCode (ps : List Byte) : (rowCode ps).length = ps.length := length_runCodes 0 ps

/-- A run's balance after two stretches. -/
theorem runBalance_append (b : Int) (ps qs : List Byte) :
    runBalance b (ps ++ qs) = runBalance (runBalance b ps) qs := by
  induction ps generalizing b with
  | nil => rfl
  | cons p ps ih => exact ih _

/-- A run's codes over two stretches. -/
theorem runCodes_append (b : Int) (ps qs : List Byte) :
    runCodes b (ps ++ qs) = runCodes b ps ++ runCodes (runBalance b ps) qs := by
  induction ps generalizing b with
  | nil => rfl
  | cons p ps ih => simp only [List.cons_append, runCodes, runBalance, ih]

/-- Every code of a run is a well-formed symbol. -/
theorem runCodes_wf (b : Int) (ps : List Byte) : ∀ v ∈ runCodes b ps, SymWf v := by
  induction ps generalizing b with
  | nil => simp [runCodes]
  | cons p ps ih =>
    intro v hv
    rcases List.mem_cons.1 hv with rfl | hv
    · exact lutCode_wf _ _
    · exact ih _ v hv

@[simp] theorem length_channelOf {α : Type} (c : Fin 3) (row : List (Tri α)) :
    (channelOf c row).length = row.length := by simp [channelOf]

@[simp] theorem channelOf_getElem? {α : Type} (c : Fin 3) (row : List (Tri α)) (x : Nat) :
    (channelOf c row)[x]? = (row[x]?).map (·.get c) := by simp [channelOf]

/-- Three channels of one length, zipped and taken apart again. -/
theorem channelOf_zipTri {α : Type} {as bs cs : List α} (hab : as.length = bs.length) (hbc : bs.length = cs.length)
    (c : Fin 3) : channelOf c (zipTri as bs cs) = match c with | 0 => as | 1 => bs | 2 => cs := by
  induction as generalizing bs cs with
  | nil =>
    cases bs <;> cases cs <;> simp at hab hbc
    fin_cases c <;> rfl
  | cons a as ih =>
    cases bs <;> cases cs <;> simp at hab hbc
    next b bs d cs =>
    have := ih hab hbc
    fin_cases c <;> simp_all [zipTri, channelOf, Tri.get]

/-- Channel c of a coded row is ROWCODE of channel c of the row (R293). -/
@[simp] theorem channelOf_encodeRow (row : List (Tri Byte)) (c : Fin 3) :
    channelOf c (encodeRow row) = rowCode (channelOf c row) := by
  unfold encodeRow
  rw [channelOf_zipTri (by simp) (by simp)]
  fin_cases c <;> rfl

@[simp] theorem length_encodeRow (row : List (Tri Byte)) : (encodeRow row).length = row.length := by
  have h : (channelOf 0 (encodeRow row)).length = (rowCode (channelOf 0 row)).length := by
    rw [channelOf_encodeRow]
  rwa [length_channelOf, length_rowCode, length_channelOf] at h

/-- Every position of a coded row is well-formed. -/
theorem encodeRow_wf (row : List (Tri Byte)) : ∀ p ∈ encodeRow row, PosWf p := by
  intro p hp c
  have h : p.get c ∈ channelOf c (encodeRow row) := List.mem_map.2 ⟨p, hp, rfl⟩
  rw [channelOf_encodeRow] at h
  exact runCodes_wf 0 _ _ h

/-! ## The overwritten rectangle -/

@[simp] theorem length_fillFrame (w h : Nat) (f : Nat → Nat → Tri Sym) : (fillFrame w h f).length = h := by
  simp [fillFrame]

/-- A row of a filled frame. -/
theorem fillFrame_getElem? {w h : Nat} {f : Nat → Nat → Tri Sym} {y : Nat} (hy : y < h) :
    (fillFrame w h f)[y]? = some ((List.range w).map fun x => f x y) := by
  simp [fillFrame, hy]

@[simp] theorem length_overwriteRect (oy ox : Nat) (rows frame : List SymRow) :
    (overwriteRect oy ox rows frame).length = frame.length := by
  induction frame generalizing oy rows with
  | nil => cases rows <;> simp [overwriteRect]
  | cons f frame ih =>
    cases rows with
    | nil => simp [overwriteRect]
    | cons r rs => cases oy <;> simp [overwriteRect, ih]

/-- Row y after the rectangle is overwritten: overwritten inside, the old row outside. -/
theorem overwriteRect_getElem? (oy ox : Nat) (rows frame : List SymRow) (y : Nat) :
    (overwriteRect oy ox rows frame)[y]? =
      if oy ≤ y ∧ y < oy + rows.length then
        (frame[y]?).map fun f => overwriteAt ox (rows[y - oy]?.getD []) f
      else frame[y]? := by
  induction frame generalizing oy rows y with
  | nil => cases rows <;> simp [overwriteRect]
  | cons f frame ih =>
    cases rows with
    | nil =>
      simp only [overwriteRect, List.length_nil, Nat.add_zero]
      rw [if_neg (by omega)]
    | cons r rs =>
      cases oy with
      | zero =>
        cases y with
        | zero => simp [overwriteRect]
        | succ y =>
          simp only [overwriteRect, List.getElem?_cons_succ, ih 0 rs y, List.length_cons, Nat.zero_add,
            Nat.sub_zero, Nat.zero_le, true_and, Nat.add_lt_add_iff_right]
      | succ oy =>
        cases y with
        | zero => simp [overwriteRect]
        | succ y =>
          simp only [overwriteRect, List.getElem?_cons_succ, ih oy (r :: rs) y, Nat.add_sub_add_right,
            Nat.add_le_add_iff_right, List.length_cons]
          congr 1
          simp only [eq_iff_iff, and_congr_right_iff]
          intro _
          omega

/-- Every position after the rectangle is overwritten is a new or an old one. -/
theorem mem_overwriteRect {oy ox : Nat} {rows frame : List SymRow} {row : SymRow}
    (h : row ∈ overwriteRect oy ox rows frame) {p : Tri Sym} (hp : p ∈ row) :
    (∃ r ∈ rows, p ∈ r) ∨ (∃ r ∈ frame, p ∈ r) := by
  induction frame generalizing oy rows with
  | nil => cases rows <;> simp [overwriteRect] at h
  | cons f frame ih =>
    cases rows with
    | nil => exact .inr ⟨row, by simpa [overwriteRect] using h, hp⟩
    | cons r rs =>
      cases oy with
      | zero =>
        simp only [overwriteRect] at h
        rcases List.mem_cons.1 h with rfl | h
        · rcases mem_overwriteAt hp with hp | hp
          · exact .inl ⟨r, by simp, hp⟩
          · exact .inr ⟨f, by simp, hp⟩
        · rcases ih h with ⟨q, hq, hpq⟩ | ⟨q, hq, hpq⟩
          · exact .inl ⟨q, by simp [hq], hpq⟩
          · exact .inr ⟨q, by simp [hq], hpq⟩
      | succ oy =>
        simp only [overwriteRect] at h
        rcases List.mem_cons.1 h with rfl | h
        · exact .inr ⟨row, by simp, hp⟩
        · rcases ih h with ⟨q, hq, hpq⟩ | ⟨q, hq, hpq⟩
          · exact .inl ⟨q, hq, hpq⟩
          · exact .inr ⟨q, by simp [hq], hpq⟩

end Sys2Proof.Machine
end

