-- ==== Sys2Proof/Laws/Inv.lean ====
section
/-! SUPPORT. How each named operation keeps `State.Inv`: one lemma per operation, to be assembled over the commands and turns. -/

namespace Sys2Proof.Machine

variable {s : State}

/-- Writing a balance touches nothing the invariant speaks of. -/
theorem inv_setBal (h : s.Inv) (c : Fin 3) (v : BitVec 8) : (setBal c v s).Inv :=
  ⟨h.1, h.2, h.3, h.4, h.5, h.6, h.7, h.8, h.9, h.10, h.11, h.12, h.13, h.14, h.15, h.16, h.17⟩

/-- All three balances replaced. -/
theorem inv_bal (h : s.Inv) (b : Tri (BitVec 8)) : State.Inv { s with bal := b } :=
  ⟨h.1, h.2, h.3, h.4, h.5, h.6, h.7, h.8, h.9, h.10, h.11, h.12, h.13, h.14, h.15, h.16, h.17⟩

/-- The mode register and the image shape. -/
theorem inv_shape (h : s.Inv) (ctrl : BitVec 3) (w ht : BitVec 12) (c : BitVec 3) :
    State.Inv { s with ctrl := ctrl, imgW := w, imgH := ht, imgC := c } :=
  ⟨h.1, h.2, h.3, h.4, h.5, h.6, h.7, h.8, h.9, h.10, h.11, h.12, h.13, h.14, h.15, h.16, h.17⟩

/-- The turns to come. -/
theorem inv_schedule (h : s.Inv) (ts : List Turn) : State.Inv { s with schedule := ts } :=
  ⟨h.1, h.2, h.3, h.4, h.5, h.6, h.7, h.8, h.9, h.10, h.11, h.12, h.13, h.14, h.15, h.16, h.17⟩

/-- An answer of the bus. -/
theorem inv_answer (h : s.Inv) (w : Word) : (answer w s).Inv :=
  ⟨h.1, h.2, h.3, h.4, h.5, h.6, h.7, h.8, h.9, h.10, h.11, h.12, h.13, h.14, h.15, h.16, h.17⟩

/-- A draw. -/
theorem inv_answerDraw (h : s.Inv) (free : Nat → Word) : (answerDraw free s).Inv :=
  ⟨h.1, h.2, h.3, h.4, h.5, h.6, h.7, h.8, h.9, h.10, h.11, h.12, h.13, h.14, h.15, h.16, h.17⟩

/-- The engine becoming idle. -/
theorem inv_idle (h : s.Inv) : (idle s).Inv :=
  ⟨h.1, h.2, h.3, h.4, h.5, h.6, h.7, h.8, h.9, h.10, h.11, h.12, h.13, h.14, h.15, h.16, fun _ => rfl⟩

/-- A command accepted while `rst` is released. -/
theorem inv_accept (h : s.Inv) (hr : s.rst = false) (w : Word) :
    (accept w s).Inv :=
  ⟨h.1, h.2, h.3, h.4, h.5, h.6, h.7, h.8, h.9, h.10, h.11, h.12, h.13, h.14, h.15, h.16,
    fun hr' => by simp [hr] at hr'⟩

/-- `rst` released. -/
theorem inv_rstLow (h : s.Inv) : State.Inv { s with rst := false } :=
  ⟨h.1, h.2, h.3, h.4, h.5, h.6, h.7, h.8, h.9, h.10, h.11, h.12, h.13, h.14, h.15, h.16, fun hr => by cases hr⟩

/-- A result of a command: a well-formed code and a delta of the coder's range. -/
theorem inv_setResult (h : s.Inv) {code : Sym} {delta : Int} (hc : SymWf code)
    (hd : -10 ≤ delta ∧ delta ≤ 10 ∧ delta % 2 = 0) : (setResult code delta s).Inv := by
  refine ⟨h.1, h.2, hc, ?_, h.5, h.6, h.7, h.8, h.9, h.10, h.11, h.12, h.13, h.14, h.15, h.16, h.17⟩
  rw [setResult_resDelta, toInt_sext32 (by omega) (by omega)]
  exact hd

/-- An error recorded (R385): a first error has a code, a later one keeps the first. -/
theorem inv_recordError (h : s.Inv) (e : ErrCode) : (recordError e s).Inv := by
  refine ⟨h.1, h.2, h.3, h.4, h.5, h.6, h.7, h.8, h.9, h.10, h.11, h.12, h.13, ?_, ?_, ?_, h.17⟩
  · have := h.errHasCode
    simp only [recordError_err, recordError_errCode, Bool.true_eq_false, false_iff]
    split
    · next he => rw [← this, he]; decide
    · cases e <;> decide
  · have := h.errCodeKnown
    simp only [recordError_errCode]
    split
    · exact this
    · cases e <;> decide
  · simp

/-- A command that raises (R385). -/
theorem inv_raise (h : s.Inv) (e : ErrCode) : (raise e s).Inv := inv_idle (inv_recordError h e)

/-- The error cleared (R353). -/
theorem inv_clearError (h : s.Inv) : (clearError s).Inv :=
  ⟨h.1, h.2, h.3, h.4, h.5, h.6, h.7, h.8, h.9, h.10, h.11, h.12, h.13, by simp, by simp, by simp, h.17⟩

/-- The registers at their reset values, the memories kept (R355). -/
theorem inv_resetRegisters (h : s.Inv) : (resetRegisters s).Inv :=
  ⟨h.1, h.2, by simp [SymWf], by simp, by simp, by intro r hr; simp at hr, h.7, h.8, by simp [HoldsLine],
    by simp, by simp, by simp, by simp, by simp, by simp, by simp, by simp⟩

/-- A clock edge with `rst` asserted (R420) leads to a legal state from any state. -/
theorem inv_hardReset (s : State) : (hardReset s).Inv :=
  ⟨rfl, by simp, by simp [SymWf], by simp, by simp, by intro r hr; simp at hr, by simp, by simp,
    by simp [HoldsLine], by simp, by simp, by simp, by simp, by simp, by simp, by simp, by simp⟩

/-- A write of an IMG cell within IMG_CAP (R83). -/
theorem inv_imgWrite (h : s.Inv) {i : Nat} (hi : i < imgCap s) (b : Byte) :
    (imgWrite i b s).Inv := by
  refine ⟨Memory.wf_write i b h.1, ?_, h.3, h.4, h.5, h.6, h.7, h.8, h.9, h.10, h.11, h.12, h.13, h.14, h.15, h.16, h.17⟩
  intro cell hcell
  rcases Memory.mem_write hcell with rfl | hcell
  · exact hi
  · exact h.2 cell hcell

/-- End of stream (R324), past the last row of a frame held. -/
theorem inv_endOfStream (h : s.Inv) (h0 : s.fbH ≠ 0) (hc : s.fbH.toNat ≤ s.cur.toNat) : (endOfStream s).Inv :=
  ⟨h.1, h.2, h.3, h.4, h.5, h.6, h.7, h.8, by simp [HoldsLine], by simp, by simp, h.12,
    by
      intro _
      refine ⟨rfl, ?_, h0⟩
      exact BitVec.eq_of_toNat_eq (le_antisymm h.curInFrame hc),
    h.14, h.15, h.16, h.17⟩

/-- CUR after a row of the frame held was served stays in the frame (R322). -/
theorem nextCur_le (s : State) {r : BitVec 12} (hr : r.toNat < s.fbH.toNat) :
    (nextCur s r).toNat ≤ s.fbH.toNat := by
  have := s.fbH.isLt
  simp only [nextCur]
  split
  · simp
  · simp only [field12, BitVec.toNat_ofNat]; omega

/-- A row of the frame held served (R323). -/
theorem inv_serveRow (h : s.Inv) {r : BitVec 12} {cells : SymRow} (hr : r.toNat < s.fbH.toNat)
    (hcells : fbRow? s r.toNat = some cells) : (serveRow r cells s).Inv := by
  obtain ⟨row, hrow, hlen, rfl⟩ := fbRow?_spec hcells
  refine ⟨h.1, h.2, h.3, h.4, h.5, h.6, h.7, ?_, ?_, ?_, ?_, nextCur_le s hr, ?_, h.14, h.15, h.16, h.17⟩
  · intro p hp
    rcases mem_overwriteAt hp with hp | hp
    · exact (h.fbWf row (List.mem_of_getElem? hrow)).2 p (List.mem_of_mem_take hp)
    · exact h.lbWf p hp
  · intro _
    simp only [serveRow_lineLen, serveRow_lb, length_overwriteAt_zero, List.length_take]
    omega
  · intro _
    exact ⟨rfl, hr⟩
  · simp
  · simp

/-- A frame published (R280, R290): it fits, its rows are as wide as it says, and its symbols are well-formed. -/
theorem inv_publish (h : s.Inv) {w ht : BitVec 12} {cells : List SymRow} (bal : Tri (BitVec 8))
    (hpos : 0 < w.toNat) (hw : w.toNat ≤ s.platform.params.maxW) (hh : ht.toNat ≤ s.platform.params.maxH)
    (hrows : ht.toNat ≤ cells.length) (hcols : ∀ row ∈ cells, w.toNat ≤ row.length)
    (hwf : ∀ row ∈ cells, ∀ p ∈ row, PosWf p) : (publish w ht cells bal s).Inv := by
  refine ⟨h.1, h.2, h.3, h.4, ⟨hw, hh⟩, ?_, ?_, h.8, by simp [HoldsLine], by simp, by simp, by simp, by simp, h.14,
    h.15, h.16, h.17⟩
  · intro r hr
    simp only [publish_fbH] at hr
    have hr' : r < cells.length := by omega
    have hmem : w.toNat ≤ cells[r].length := hcols _ (List.getElem_mem hr')
    simp only [publish_fb, publish_fbW, storeFrame_getElem?, List.getElem?_eq_getElem hr']
    cases s.fb[r]? with
    | none => exact ⟨_, rfl, hmem⟩
    | some o => exact ⟨_, rfl, by rw [length_overwriteAt_zero]; omega⟩
  · intro row hrow
    refine ⟨storeFrame_ne_nil (fun r hr hnil => ?_) (fun o ho => (h.fbWf o ho).1) hrow, fun p hp => ?_⟩
    · have := hcols r hr
      simp only [hnil, List.length_nil] at this
      omega
    · rcases mem_storeFrame hrow hp with ⟨q, hq, hpq⟩ | ⟨q, hq, hpq⟩
      · exact hwf q hq p hpq
      · exact (h.fbWf q hq).2 p hpq

end Sys2Proof.Machine
end

