-- ==== Sys2Proof/Laws/Exec.lean ====
section
/-! SUPPORT. What each shared operation can answer, said once: COMPOSE and FETCH (43_frame, 44_line), the bus (20_memory), the
engine and the turns (10_state R33, 70_reset). -/

namespace Sys2Proof.Machine

variable {s t : State}

/-! ## Outcomes -/

/-- What `finish` answers: a next state with BUSY = 0, or the stop of the command. -/
theorem finish_eq_next {o : Result} : finish o = .next t ↔ ∃ u, o = .next u ∧ t = idle u := by
  cases o <;> simp [finish, eq_comm]

@[simp] theorem finish_next (s : State) : finish (.next s) = .next (idle s) := rfl

@[simp] theorem finish_fault (f : Fault) : finish (.fault f) = .fault f := rfl

@[simp] theorem finish_refused (r : Refusal) : finish (.refused r) = .refused r := rfl

/-! ## COMPOSE -/

/-- COMPOSE past its checks answers a next state exactly when the image it reads has been written. -/
theorem composeRead_eq_next {g : Option Geometry} :
    composeRead g s = .next t ↔ ∃ rows, srcImageOf s = some rows ∧ t = composeWith rows g s := by
  unfold composeRead
  cases srcImageOf s <;> simp [eq_comm]

/-- What COMPOSE can do: E_SHAPE, E_RES, or its reads and writes with the geometry its frame needs. -/
theorem execCompose_cases (s : State) :
    (shapeBad s = true ∧ execCompose s = .next (raise .shape s)) ∨
    (shapeBad s = false ∧ passthrough s = false ∧ blankEn s = true ∧ geom s = none ∧
      execCompose s = .next (raise .res s)) ∨
    (∃ g, shapeBad s = false ∧ passthrough s = false ∧ blankEn s = true ∧ geom s = some g ∧
      execCompose s = composeRead (some g) s) ∨
    (shapeBad s = false ∧ (passthrough s = true ∨ blankEn s = false) ∧ execCompose s = composeRead none s) := by
  unfold execCompose
  cases hs : shapeBad s <;> cases hp : passthrough s <;> cases hb : blankEn s <;> cases hg : geom s <;> simp

/-- The shape check passed (R281). -/
theorem shapeBad_eq_false : shapeBad s = false ↔
    (s.imgC = 1 ∨ s.imgC = 3) ∧ 0 < s.imgW.toNat ∧ 0 < s.imgH.toNat ∧
      s.imgW.toNat ≤ s.platform.params.maxW ∧ s.imgH.toNat ≤ s.platform.params.maxH := by
  have hz : ∀ v : BitVec 12, (v == 0) = false ↔ 0 < v.toNat := by
    intro v
    have h0 : (0 : BitVec 12).toNat = 0 := rfl
    rw [beq_eq_false_iff_ne, ne_eq, ← BitVec.toNat_inj, h0]
    omega
  simp only [shapeBad, Bool.or_eq_false_iff, Bool.and_eq_false_iff, bne_eq_false_iff_eq, hz, decide_eq_false_iff_not,
    gt_iff_lt, not_lt]
  tauto

/-- The channel count of an accepted image. -/
theorem imgC_toNat_of_shape (h : shapeBad s = false) : s.imgC.toNat = 1 ∨ s.imgC.toNat = 3 := by
  rcases (shapeBad_eq_false.1 h).1 with h | h <;> simp [h]

/-- A key's geometry is well-formed (R242): the window lies between the porches and the frame fits in FB. -/
theorem geometry_wf (p : Platform) (m : VideoMode) :
    (p.params.modes.get m).hFrontPorch + m.hActive + (p.params.modes.get m).hBackPorch ≤ (p.params.modes.get m).hTotal ∧
    (p.params.modes.get m).vFrontPorch + m.vActive + (p.params.modes.get m).vBackPorch ≤ (p.params.modes.get m).vTotal ∧
    (p.params.modes.get m).hTotal ≤ p.params.maxW ∧ (p.params.modes.get m).vTotal ≤ p.params.maxH := by
  have h := p.ok
  simp only [Params.wf, Bool.and_eq_true, List.all_eq_true, decide_eq_true_eq] at h
  have hm : p.params.modeWf m = true := h.1.1.1 m (by cases m <;> simp [VideoMode.keys])
  simp only [Params.modeWf, Bool.and_eq_true, decide_eq_true_eq] at hm
  tauto

/-- MAX_W and MAX_H fit the 12-bit fields (R9). -/
theorem max_le (p : Platform) : p.params.maxW ≤ 4095 ∧ p.params.maxH ≤ 4095 := by
  have h := p.ok
  simp only [Params.wf, Bool.and_eq_true, decide_eq_true_eq] at h
  exact ⟨h.1.1.2, h.1.2⟩

/-- The total the source fixes (R8). -/
theorem total_640x480 (p : Platform) :
    (p.params.modes.get .m640x480).hTotal = 800 ∧ (p.params.modes.get .m640x480).vTotal = 525 := by
  have h := p.ok
  simp only [Params.wf, ModeTable.sourceTotal, Bool.and_eq_true, decide_eq_true_eq] at h
  exact h.2

/-- A size is a key exactly when it is the active size of one of the five modes (R240). -/
theorem ofSize?_eq_some {w h : Nat} {m : VideoMode} : VideoMode.ofSize? w h = some m ↔ m.hActive = w ∧ m.vActive = h := by
  constructor
  · intro hm
    have := List.find?_some hm
    simpa using this
  · rintro ⟨rfl, rfl⟩
    cases m <;> rfl

/-- GEOM (R243): the geometry of the key that (IMG_W, IMG_H) is. -/
theorem geom_eq_some {g : Geometry} : geom s = some g ↔
    ∃ m : VideoMode, m.hActive = s.imgW.toNat ∧ m.vActive = s.imgH.toNat ∧ g = s.platform.params.modes.get m := by
  simp only [geom, geomOf, Option.map_eq_some_iff]
  constructor
  · rintro ⟨m, hm, rfl⟩
    have := ofSize?_eq_some.1 hm
    exact ⟨m, this.1, this.2, rfl⟩
  · rintro ⟨m, h1, h2, rfl⟩
    exact ⟨m, ofSize?_eq_some.2 ⟨h1, h2⟩, rfl⟩

/-- A 12-bit field holds a value that fits it. -/
theorem toNat_field12 {v : Nat} (h : v ≤ 4095) : (field12 v).toNat = v := by
  simp only [field12, BitVec.toNat_ofNat]; omega

/-- The shape check passed, in the terms of the statements (R281). -/
theorem shapeBad_eq_false_iff_shapeOk : shapeBad s = false ↔ ShapeOk s := shapeBad_eq_false

/-- An accepted image whose cells have all been written is read (R282). -/
theorem srcImageOf_isSome (hs : ShapeOk s) (hw : ImageWritten s) : ∃ rows, srcImageOf s = some rows :=
  srcImage_isSome (imgC_toNat_of_shape (shapeBad_eq_false_iff_shapeOk.2 hs)) hw

/-- An image that is read has all its cells written (R282). -/
theorem written_of_srcImage {img : Memory} {w h ch : Nat} {rows : List (List (Tri Byte))} (hch : ch = 1 ∨ ch = 3)
    (hr : srcImage img w h ch = some rows) : ∀ i < w * h * ch, (Memory.read? img i).isSome = true := by
  intro i hi
  obtain ⟨-, hspec⟩ := srcImage_spec hr
  have hpos : i / ch < w * h := Nat.div_lt_of_lt_mul (by rw [Nat.mul_comm]; exact hi)
  have hw0 : 0 < w := Nat.pos_of_ne_zero (by rintro rfl; simp at hpos)
  obtain ⟨row, -, -, hx⟩ := hspec (i / ch / w) (Nat.div_lt_of_lt_mul hpos)
  obtain ⟨p, -, hp⟩ := hx (i / ch % w) (Nat.mod_lt _ hw0)
  have hc3 : i % ch < 3 := by have := Nat.mod_lt i (show 0 < ch by omega); omega
  have hcell := hp ⟨i % ch, hc3⟩
  have e1 : i / ch / w * w + i / ch % w = i / ch := by rw [Nat.mul_comm]; exact Nat.div_add_mod _ _
  have e2 : i / ch * ch + (if ch = 1 then 0 else i % ch) = i := by
    rcases hch with rfl | rfl <;> simp
    omega
  simp only [srcPixel, e1, e2] at hcell
  rw [hcell]; rfl

/-- Row y of an image that is read, and channel c of it as the statements speak of it (R282). -/
theorem sourceLine_of_srcImageOf {rows : List (List (Tri Byte))} (hr : srcImageOf s = some rows) (c : Fin 3) {y : Nat}
    (hy : y < s.imgH.toNat) :
    ∃ row, rows[y]? = some row ∧ row.length = s.imgW.toNat ∧ SourceLine s y c (channelOf c row) := by
  obtain ⟨-, hspec⟩ := srcImage_spec hr
  obtain ⟨row, h1, h2, h3⟩ := hspec y hy
  refine ⟨row, h1, h2, by simpa using h2, fun x hx => ?_⟩
  obtain ⟨p, hp, hc⟩ := h3 x hx
  have hcell := hc c
  simp only [srcPixel] at hcell
  rw [hcell, channelOf_getElem?, hp]; rfl

/-- A cell of FB after a frame of `H` rows of `W` positions was published: the new one inside, the old one outside (R280). -/
theorem fbCell?_publish {cells : List SymRow} {w ht : BitVec 12} {bal : Tri (BitVec 8)} {W H : Nat}
    (hH : cells.length = H) (hW : ∀ row ∈ cells, row.length = W) (y x : Nat) (c : Fin 3) :
    fbCell? (publish w ht cells bal s) y x c =
      if y < H ∧ x < W then (cells[y]?.bind (·[x]?)).map (·.get c) else fbCell? s y x c := by
  unfold fbCell?
  simp only [publish_fb, storeFrame_getElem?]
  rcases Nat.lt_or_ge y H with hy | hy
  · have hc : cells[y]? = some cells[y] := List.getElem?_eq_getElem (by omega)
    have hl : cells[y].length = W := hW _ (List.getElem_mem _)
    rw [hc]
    cases s.fb[y]? with
    | none =>
      simp only [hy, true_and, Option.bind_some]
      split
      · rfl
      · rw [List.getElem?_eq_none (by omega)]; rfl
    | some o =>
      simp only [hy, true_and, Option.bind_some]
      rw [getElem?_overwriteAt 0 _ _ (by omega)]
      simp only [hl, Nat.zero_le, true_and, Nat.zero_add, Nat.sub_zero]
      split <;> rfl
  · rw [List.getElem?_eq_none (by omega), if_neg (by omega)]

/-! ## FETCH -/

/-- FETCH of one row answers a next state exactly when the row has been written. -/
theorem fetchRow_eq_next {r : BitVec 12} :
    fetchRow r s = .next t ↔ ∃ cells, fbRow? s r.toNat = some cells ∧ t = serveRow r cells s := by
  unfold fetchRow
  cases fbRow? s r.toNat <;> simp [eq_comm]

/-- What FETCH can do: E_EMPTY, end of stream, row 0 after a wrap, or the row at CUR. -/
theorem execFetch_cases (s : State) :
    (s.fbH = 0 ∧ execFetch s = .next (raise .empty s)) ∨
    (s.fbH ≠ 0 ∧ s.fbH.toNat ≤ s.cur.toNat ∧ oneShot s = true ∧ execFetch s = .next (endOfStream s)) ∨
    (s.fbH ≠ 0 ∧ s.fbH.toNat ≤ s.cur.toNat ∧ oneShot s = false ∧ execFetch s = fetchRow 0 s) ∨
    (s.fbH ≠ 0 ∧ s.cur.toNat < s.fbH.toNat ∧ execFetch s = fetchRow s.cur s) := by
  unfold execFetch
  by_cases h0 : s.fbH = 0
  · exact .inl ⟨h0, if_pos h0⟩
  · rw [if_neg h0]
    by_cases hc : s.fbH.toNat ≤ s.cur.toNat
    · rw [if_pos hc]
      cases ho : oneShot s with
      | true => exact .inr (.inl ⟨h0, hc, rfl, rfl⟩)
      | false => exact .inr (.inr (.inl ⟨h0, hc, rfl, rfl⟩))
    · exact .inr (.inr (.inr ⟨h0, by omega, if_neg hc⟩))

/-- A nonzero 12-bit size. -/
theorem toNat_pos_of_ne {v : BitVec 12} (h : v ≠ 0) : 0 < v.toNat := by
  have h0 : (0 : BitVec 12).toNat = 0 := rfl
  rw [ne_eq, ← BitVec.toNat_inj, h0] at h
  omega

/-- One more FETCH after `n` of them. -/
theorem fetches_succ {n : Nat} {u : State} (h : fetches n s = some t) (hu : exec .fetch t = .next u) :
    fetches (n + 1) s = some u := by
  induction n generalizing s with
  | zero =>
    obtain rfl := Option.some.inj h
    simp only [fetches, hu]
  | succ n ih =>
    rw [fetches] at h ⊢
    cases he : exec .fetch s with
    | next v => rw [he] at h; exact ih h
    | fault f => rw [he] at h; cases h
    | refused r => rw [he] at h; cases h

/-! ## The bus -/

/-- Where an access that is no bus error lies (R80 to R85). -/
theorem locate_ok {addr : Word} {n : Nat} {l : Location} (h : locate s addr n = .ok l) :
    n = 4 ∧ addr.toNat % 4 = 0 ∧
      ((∃ r, l = .reg r ∧ regAt? addr.toNat = some r) ∨
       (∃ i, l = .img i ∧ i < imgCap s ∧ addr.toNat = imgBase + 4 * i) ∨
       (∃ i, l = .fb i ∧ i < fbCount s ∧ addr.toNat = fbBase + 4 * i) ∨
       (∃ i, l = .lb i ∧ i < lbCount s ∧ addr.toNat = lbBase + 4 * i)) := by
  have hwin : ∀ {count i : Nat} {mk : Nat → Location}, windowAt count i mk = .ok l → i < count ∧ l = mk i := by
    intro count i mk hw
    unfold windowAt at hw
    split at hw
    · next hi => exact ⟨hi, by simpa using hw.symm⟩
    · simp at hw
  unfold locate at h
  split at h
  · simp at h
  · next hn =>
    split at h
    · simp at h
    · next ha =>
      have ha : addr.toNat % 4 = 0 := by omega
      refine ⟨by omega, ha, ?_⟩
      unfold wordAt at h
      split at h
      · split at h
        · next r hr => exact .inl ⟨r, by simpa using h.symm, hr⟩
        · simp at h
      · split at h
        · simp at h
        · next h1 =>
          split at h
          · obtain ⟨hi, rfl⟩ := hwin h
            exact .inr (.inl ⟨_, rfl, hi, by simp only [imgBase] at *; omega⟩)
          · next h2 =>
            split at h
            · obtain ⟨hi, rfl⟩ := hwin h
              exact .inr (.inr (.inl ⟨_, rfl, hi, by simp only [fbBase] at *; omega⟩))
            · next h3 =>
              obtain ⟨hi, rfl⟩ := hwin h
              exact .inr (.inr (.inr ⟨_, rfl, hi, by simp only [lbBase] at *; omega⟩))

/-- IMG_CAP elements fit the IMG window (R82). -/
theorem imgCap_le (s : State) : imgCap s ≤ 50307075 := by
  have h := max_le s.platform
  have : s.platform.params.maxW * s.platform.params.maxH ≤ 4095 * 4095 := Nat.mul_le_mul h.1 h.2
  simp only [imgCap]; omega

/-- The frame held fits the FB window (R82). -/
theorem fbCount_le (s : State) : fbCount s ≤ 50307075 := by
  have h1 : s.fbW.toNat ≤ 4095 := by have := s.fbW.isLt; omega
  have h2 : s.fbH.toNat ≤ 4095 := by have := s.fbH.isLt; omega
  have : s.fbW.toNat * s.fbH.toNat ≤ 4095 * 4095 := Nat.mul_le_mul h1 h2
  simp only [fbCount]; omega

/-- The line held fits the LB window (R82). -/
theorem lbCount_le (s : State) : lbCount s ≤ 12285 := by
  have := s.lineLen.isLt
  simp only [lbCount]; split <;> omega

/-- An aligned 32-bit access reaches what lies at its address (R80). -/
theorem locate_aligned {addr : Word} {a : Nat} (ht : addr.toNat = a) (ha : a % 4 = 0) :
    locate s addr 4 = wordAt s a := by
  unfold locate
  rw [if_neg (by omega), if_neg (by omega), ht]

/-- A register lies at its offset, and every assigned offset is word-aligned and below 0x100 (R34 to R47, R82). -/
theorem locate_reg {addr : Word} {r : Reg} (h : regAt? addr.toNat = some r) : locate s addr 4 = .ok (.reg r) := by
  have hreg : addr.toNat % 4 = 0 ∧ addr.toNat < 0x100 := by
    revert h
    generalize addr.toNat = a
    unfold regAt?
    split <;> simp
  rw [locate_aligned rfl hreg.1]
  unfold wordAt
  rw [if_pos hreg.2, h]

/-- Element i of a window (R82). -/
theorem windowAt_lt {count i : Nat} {mk : Nat → Location} (h : i < count) : windowAt count i mk = .ok (mk i) := if_pos h

/-- Element i of the IMG window lies at 0x1000_0000 + 4i (R82). -/
theorem locate_img {i : Nat} (h : i < imgCap s) : locate s (BitVec.ofNat 32 (imgBase + 4 * i)) 4 = .ok (.img i) := by
  have := imgCap_le s
  have hb1 : imgBase = 268435456 := rfl
  have hb2 : fbBase = 536870912 := rfl
  rw [locate_aligned (a := imgBase + 4 * i) (by rw [BitVec.toNat_ofNat]; omega) (by omega)]
  unfold wordAt
  rw [if_neg (by omega), if_neg (by omega), if_pos (by omega), show (imgBase + 4 * i - imgBase) / 4 = i by omega,
    windowAt_lt h]

/-- Element i of the FB window lies at 0x2000_0000 + 4i (R82). -/
theorem locate_fb {i : Nat} (h : i < fbCount s) : locate s (BitVec.ofNat 32 (fbBase + 4 * i)) 4 = .ok (.fb i) := by
  have := fbCount_le s
  have hb1 : imgBase = 268435456 := rfl
  have hb2 : fbBase = 536870912 := rfl
  have hb3 : lbBase = 805306368 := rfl
  rw [locate_aligned (a := fbBase + 4 * i) (by rw [BitVec.toNat_ofNat]; omega) (by omega)]
  unfold wordAt
  rw [if_neg (by omega), if_neg (by omega), if_neg (by omega), if_pos (by omega),
    show (fbBase + 4 * i - fbBase) / 4 = i by omega, windowAt_lt h]

/-- Element i of the LB window lies at 0x3000_0000 + 4i (R82). -/
theorem locate_lb {i : Nat} (h : i < lbCount s) : locate s (BitVec.ofNat 32 (lbBase + 4 * i)) 4 = .ok (.lb i) := by
  have := lbCount_le s
  have hb1 : imgBase = 268435456 := rfl
  have hb2 : fbBase = 536870912 := rfl
  have hb3 : lbBase = 805306368 := rfl
  rw [locate_aligned (a := lbBase + 4 * i) (by rw [BitVec.toNat_ofNat]; omega) (by omega)]
  unfold wordAt
  rw [if_neg (by omega), if_neg (by omega), if_neg (by omega), if_neg (by omega),
    show (lbBase + 4 * i - lbBase) / 4 = i by omega, windowAt_lt h]

/-- An element past the end of the IMG window is unmapped (R83). -/
theorem locate_img_beyond {i : Nat} (h : imgCap s ≤ i) (hi : imgBase + 4 * i < fbBase) :
    locate s (BitVec.ofNat 32 (imgBase + 4 * i)) 4 = .error .unmapped := by
  have hb1 : imgBase = 268435456 := rfl
  have hb2 : fbBase = 536870912 := rfl
  rw [locate_aligned (a := imgBase + 4 * i) (by rw [BitVec.toNat_ofNat]; omega) (by omega)]
  unfold wordAt
  rw [if_neg (by omega), if_neg (by omega), if_pos (by omega), show (imgBase + 4 * i - imgBase) / 4 = i by omega]
  exact if_neg (by omega)

/-- An element past the end of the FB window is unmapped (R84). -/
theorem locate_fb_beyond {i : Nat} (h : fbCount s ≤ i) (hi : fbBase + 4 * i < lbBase) :
    locate s (BitVec.ofNat 32 (fbBase + 4 * i)) 4 = .error .unmapped := by
  have hb1 : imgBase = 268435456 := rfl
  have hb2 : fbBase = 536870912 := rfl
  have hb3 : lbBase = 805306368 := rfl
  rw [locate_aligned (a := fbBase + 4 * i) (by rw [BitVec.toNat_ofNat]; omega) (by omega)]
  unfold wordAt
  rw [if_neg (by omega), if_neg (by omega), if_neg (by omega), if_pos (by omega),
    show (fbBase + 4 * i - fbBase) / 4 = i by omega]
  exact if_neg (by omega)

/-- An element past the end of the LB window is unmapped (R85). -/
theorem locate_lb_beyond {i : Nat} (h : lbCount s ≤ i) (hi : lbBase + 4 * i < 2 ^ 32) :
    locate s (BitVec.ofNat 32 (lbBase + 4 * i)) 4 = .error .unmapped := by
  have hb1 : imgBase = 268435456 := rfl
  have hb2 : fbBase = 536870912 := rfl
  have hb3 : lbBase = 805306368 := rfl
  rw [locate_aligned (a := lbBase + 4 * i) (by rw [BitVec.toNat_ofNat]; omega) (by omega)]
  unfold wordAt
  rw [if_neg (by omega), if_neg (by omega), if_neg (by omega), if_neg (by omega),
    show (lbBase + 4 * i - lbBase) / 4 = i by omega]
  exact if_neg (by omega)

/-- A read that is a bus error faults (R86). -/
theorem hostRead_error {addr : Word} {n : Nat} {e : BusError} (h : locate s addr n = .error e) :
    hostRead addr n s = .fault (.busError e) := by unfold hostRead; rw [h]

/-- A write that is a bus error faults (R86). -/
theorem hostWrite_error {addr v : Word} {n : Nat} {e : BusError} (h : locate s addr n = .error e) :
    hostWrite addr n v s = .fault (.busError e) := by unfold hostWrite; rw [h]

/-- A read while BUSY = 0. -/
theorem hostRead_idle {addr : Word} {n : Nat} {l : Location} (hb : s.busy = false) (h : locate s addr n = .ok l) :
    hostRead addr n s = readIdle l s := by unfold hostRead; rw [h]; simp [hb]

/-- A read while BUSY = 1 (R96). -/
theorem hostRead_busy {addr : Word} {n : Nat} {l : Location} (hb : s.busy = true) (h : locate s addr n = .ok l) :
    hostRead addr n s = .next (readBusy l s) := by unfold hostRead; rw [h]; simp [hb]

/-- A write while BUSY = 0. -/
theorem hostWrite_idle {addr v : Word} {n : Nat} {l : Location} (hb : s.busy = false) (h : locate s addr n = .ok l) :
    hostWrite addr n v s = writeIdle l v s := by unfold hostWrite; rw [h]; simp [hb]

/-- A write while BUSY = 1 (R96). -/
theorem hostWrite_busy {addr v : Word} {n : Nat} {l : Location} (hb : s.busy = true) (h : locate s addr n = .ok l) :
    hostWrite addr n v s = writeBusy l s := by unfold hostWrite; rw [h]; simp [hb]

/-- A read of a written IMG cell (R83). -/
theorem readIdle_img {i : Nat} {b : Byte} (h : Memory.read? s.img i = some b) :
    readIdle (.img i) s = .next (answer (zext32 b) s) := by simp [readIdle, h]

/-- A read of an unwritten IMG cell is a draw (R83). -/
theorem readIdle_img_unwritten {i : Nat} (h : Memory.read? s.img i = none) :
    readIdle (.img i) s = .next (answerDraw (fun n => zext32 (Config.freeByte n)) s) := by simp [readIdle, h]

/-- A read of a written FB cell (R84). -/
theorem readIdle_fb {i : Nat} {v : Sym} (h : fbElem? s i = some v) :
    readIdle (.fb i) s = .next (answer (zext32 v) s) := by simp [readIdle, h]

/-- A read of a written LB cell (R85). -/
theorem readIdle_lb {i : Nat} {v : Sym} (h : lbElem? s i = some v) :
    readIdle (.lb i) s = .next (answer (zext32 v) s) := by simp [readIdle, h]

/-- A read that answers a next state changes the answer and the count of draws, nothing else (R94). -/
theorem hostRead_frame {addr : Word} {n : Nat} (h : hostRead addr n s = .next t) :
    t = { s with rdata := t.rdata, draws := t.draws } := by
  unfold hostRead at h
  split at h
  · simp at h
  · next l _ =>
    split at h
    · obtain rfl := Host.Outcome.next.inj h
      unfold readBusy
      split <;> rfl
    · unfold readIdle at h
      split at h
      · obtain rfl := Host.Outcome.next.inj h; rfl
      · split at h <;> (obtain rfl := Host.Outcome.next.inj h; rfl)
      · split at h
        · obtain rfl := Host.Outcome.next.inj h; rfl
        · simp at h
      · split at h
        · obtain rfl := Host.Outcome.next.inj h; rfl
        · simp at h

/-- What a write that answers a next state did: E_BUSY, a register, or an IMG cell. -/
theorem hostWrite_cases {addr v : Word} {n : Nat} (h : hostWrite addr n v s = .next t) :
    (s.busy = true ∧ t = recordError .busy s) ∨
    (s.busy = false ∧ ∃ r, locate s addr n = .ok (.reg r) ∧ t = regWrite r v s) ∨
    (s.busy = false ∧ ∃ i, locate s addr n = .ok (.img i) ∧
      t = imgWrite i (v.extractLsb' 0 8) s) := by
  unfold hostWrite at h
  split at h
  · simp at h
  · next l hl =>
    rcases Bool.eq_false_or_eq_true s.busy with hb | hb
    · rw [if_pos hb] at h
      cases l <;> simp [writeBusy] at h <;> exact .inl ⟨hb, h.symm⟩
    · rw [if_neg (by simp [hb])] at h
      cases l with
      | reg r => exact .inr (.inl ⟨hb, r, hl, (Host.Outcome.next.inj h).symm⟩)
      | img i => exact .inr (.inr ⟨hb, i, hl, (Host.Outcome.next.inj h).symm⟩)
      | fb i => simp [writeIdle] at h
      | lb i => simp [writeIdle] at h

/-- What the CMD write does while BUSY = 0 (R33): accepted, or dropped with no change (R386). -/
theorem cmdWrite_cases (w : Word) (s : State) :
    cmdWrite w s = accept w s ∨
    (s.err = true ∧ w.extractLsb' 0 8 ≠ 0x08#8 ∧ w.extractLsb' 0 8 ≠ 0x09#8 ∧ cmdWrite w s = s) := by
  unfold cmdWrite
  simp only
  split
  · next h =>
    simp only [Bool.and_eq_true, bne_iff_ne, ne_eq] at h
    exact .inr ⟨h.1.1, h.1.2, h.2, rfl⟩
  · exact .inl rfl

/-! ## The engine and the turns -/

/-- What executing PENDING does: the decoded command, or E_CMD (R128). -/
theorem executePending_cases (s : State) :
    (∃ i, decode s.pending = .ok i ∧ executePending s = exec i s) ∨
    (∃ e, decode s.pending = .error e ∧ executePending s = .next (raise .cmd s)) := by
  unfold executePending
  cases h : decode s.pending with
  | ok i => exact .inl ⟨i, rfl, rfl⟩
  | error e => exact .inr ⟨e, rfl, rfl⟩

/-- What the engine's turn does: held at reset, a whole command, or nothing. -/
theorem engineTurn_cases (s : State) :
    (s.rst = true ∧ engineTurn s = .next (hardReset s)) ∨
    (s.rst = false ∧ s.busy = true ∧ engineTurn s = finish (executePending s)) ∨
    (s.rst = false ∧ s.busy = false ∧ engineTurn s = .next s) := by
  unfold engineTurn
  cases s.rst <;> cases s.busy <;> simp

/-- What a host access answers: refused while `rst` is asserted (R421), else the access. -/
theorem hostTurn_eq_next {f : State → Result} : hostTurn f s = .next t ↔ s.rst = false ∧ f s = .next t := by
  unfold hostTurn
  cases s.rst <;> simp

/-- When the engine's turn is next, a step is the engine's turn. -/
theorem step_of_engineNext (h : s.engineNext) : step s = engineTurn s.popTurn := by
  obtain ⟨_, _, _, _, _, _, _, _, _, _, _, _, _, _, _, _, _, _, _, _, _, _, _, sched, _, _, _, _⟩ := s
  rcases h with h | h
  · cases sched with
    | nil => simp at h
    | cons t ts =>
      simp only [List.head?_cons, Option.some.injEq] at h
      subst h
      rfl
  · cases sched with
    | nil => rfl
    | cons t ts => simp at h

/-- What a step can be: the engine's turn, a read, a write, or a clock edge of `rst`. -/
theorem step_cases (s : State) :
    (s.engineNext ∧ step s = engineTurn s.popTurn) ∨
    (∃ a n, s.schedule.head? = some (.read a n) ∧ step s = hostTurn (hostRead a n) s.popTurn) ∨
    (∃ a n v, s.schedule.head? = some (.write a n v) ∧ step s = hostTurn (hostWrite a n v) s.popTurn) ∨
    (∃ level, s.schedule.head? = some (.rst level) ∧ step s = rstTurn level s.popTurn) := by
  obtain ⟨_, _, _, _, _, _, _, _, _, _, _, _, _, _, _, _, _, _, _, _, _, _, _, sched, _, _, _, _⟩ := s
  cases sched with
  | nil => exact .inl ⟨.inr rfl, rfl⟩
  | cons t ts =>
    cases t with
    | read a n => exact .inr (.inl ⟨a, n, rfl, rfl⟩)
    | write a n v => exact .inr (.inr (.inl ⟨a, n, v, rfl, rfl⟩))
    | engine => exact .inl ⟨.inl rfl, rfl⟩
    | rst level => exact .inr (.inr (.inr ⟨level, rfl, rfl⟩))

end Sys2Proof.Machine
end

