-- ==== Sys2Proof/Laws/PerInstr.lean ====
section
/-! SUPPORT. One statement about every command as syntax: its word carries the fixed bits of its row of spec/opcode_table.json. -/

namespace Sys2Proof.Laws.TableRow

/-- The mask of the command's row: the bits the row fixes. -/
def mask : Instr → Word
  | .nop => 0xFFFFFFFF
  | .enc _ _ => 0xFFFC00FF
  | .fenc _ _ => 0xFFFC00FF
  | .balrst _ => 0xFFFFF8FF
  | .lutrd _ _ => 0xFFFC00FF
  | .blkrd _ _ => 0x000000FF
  | .compose => 0xFFFFFFFF
  | .fetch => 0xFFFFFFFF
  | .clrerr => 0xFFFFFFFF
  | .srst => 0xFFFFFFFF

/-- The match of the command's row: what the fixed bits are. -/
def pattern : Instr → Word
  | .nop => 0x00000000
  | .enc _ _ => 0x00000001
  | .fenc _ _ => 0x00000002
  | .balrst _ => 0x00000003
  | .lutrd _ _ => 0x00000004
  | .blkrd _ _ => 0x00000005
  | .compose => 0x00000006
  | .fetch => 0x00000007
  | .clrerr => 0x00000008
  | .srst => 0x00000009

/-- The command's word, under its row's mask, is its row's match. -/
def Statement (i : Instr) : Prop := encode i &&& mask i = pattern i

theorem nop : Statement .nop := rfl

theorem enc (ch : BitVec 2) (pix : Byte) : Statement (.enc ch pix) := by
  revert ch pix; unfold Statement; decide +kernel

theorem fenc (ch : BitVec 2) (pix : Byte) : Statement (.fenc ch pix) := by
  revert ch pix; unfold Statement; decide +kernel

theorem balrst (m : BitVec 3) : Statement (.balrst m) := by
  revert m; unfold Statement; decide +kernel

theorem lutrd (st : BitVec 2) (pix : Byte) : Statement (.lutrd st pix) := by
  revert st pix; unfold Statement; decide +kernel

theorem blkrd (x y : BitVec 12) : Statement (.blkrd x y) := by
  apply BitVec.eq_of_toNat_eq
  show (encodeX 0x05 x y &&& 0x000000FF).toNat = 5
  have hmask : (0x000000FF : Word).toNat = 2 ^ 8 - 1 := rfl
  rw [BitVec.toNat_and, hmask, Nat.and_two_pow_sub_one_eq_mod, encodeX, BitVec.toNat_append,
    ← Nat.shiftLeft_add_eq_or_of_lt (BitVec.isLt _), Nat.shiftLeft_eq, Nat.mul_add_mod_self_right]
  rfl

theorem compose : Statement .compose := rfl

theorem fetch : Statement .fetch := rfl

theorem clrerr : Statement .clrerr := rfl

theorem srst : Statement .srst := rfl

end Sys2Proof.Laws.TableRow
end

