-- ==== Sys2Proof/Laws/Words.lean ====
section
/-! SUPPORT. Command words as numbers: the fields and the encodings of 30_encoding by arithmetic on the word. -/

namespace Sys2Proof

/-- Joining two bit vectors, as numbers. -/
theorem toNat_append_eq {n m : Nat} (x : BitVec n) (y : BitVec m) : (x ++ y).toNat = x.toNat * 2 ^ m + y.toNat := by
  rw [BitVec.toNat_append, ← Nat.shiftLeft_add_eq_or_of_lt y.isLt, Nat.shiftLeft_eq]

/-- A field of a word, as a number. -/
theorem toNat_field (w : Word) (start len : Nat) : (w.extractLsb' start len).toNat = w.toNat / 2 ^ start % 2 ^ len := by
  rw [BitVec.extractLsb'_toNat, Nat.shiftRight_eq_div_pow]

/-- A bit vector is nonzero exactly when its number is. -/
theorem ne_zero_iff_toNat {n : Nat} (v : BitVec n) : v ≠ 0 ↔ v.toNat ≠ 0 := by
  rw [ne_eq, ← BitVec.toNat_inj]; simp

/-- OPC as a number (R120). -/
theorem toNat_opcOf (w : Word) : (opcOf w).toNat = w.toNat % 256 := by
  rw [opcOf, toNat_field]; omega

/-- Format N's reserved bits are set exactly when the operands are not 0 (R121). -/
theorem reservedN_ne_zero (w : Word) : reservedN w ≠ 0 ↔ w.toNat / 256 ≠ 0 := by
  rw [ne_zero_iff_toNat, reservedN, toNat_field]; omega

/-- Formats P and T's reserved bits (R122, R123). -/
theorem reservedPT_ne_zero (w : Word) : reservedPT w ≠ 0 ↔ 2 ^ 10 ≤ w.toNat / 256 := by
  rw [ne_zero_iff_toNat, reservedPT, toNat_field]; omega

/-- Format M's reserved bits (R124). -/
theorem reservedM_ne_zero (w : Word) : reservedM w ≠ 0 ↔ 2 ^ 3 ≤ w.toNat / 256 := by
  rw [ne_zero_iff_toNat, reservedM, toNat_field]; omega

/-- The reserved channel and state index (R122, R123). -/
theorem chOf_eq_three (w : Word) : chOf w = 3 ↔ w.toNat / 256 % 4 = 3 := by
  rw [← BitVec.toNat_inj, chOf, toNat_field]; rfl

/-- Format N as a number. -/
theorem toNat_encodeN (opc : BitVec 8) : (encodeN opc).toNat = opc.toNat := by
  rw [encodeN, toNat_append_eq]; simp

/-- Formats P and T as numbers. -/
theorem toNat_encodePT (opc : BitVec 8) (f : BitVec 2) (pix : Byte) :
    (encodePT opc f pix).toNat = opc.toNat + 256 * (f.toNat + 4 * pix.toNat) := by
  rw [encodePT, toNat_append_eq, toNat_append_eq, toNat_append_eq]; simp; omega

/-- Format M as a number. -/
theorem toNat_encodeM (opc : BitVec 8) (mask : BitVec 3) : (encodeM opc mask).toNat = opc.toNat + 256 * mask.toNat := by
  rw [encodeM, toNat_append_eq, toNat_append_eq]; simp; omega

/-- Format X as a number. -/
theorem toNat_encodeX (opc : BitVec 8) (x y : BitVec 12) :
    (encodeX opc x y).toNat = opc.toNat + 256 * (x.toNat + 4096 * y.toNat) := by
  rw [encodeX, toNat_append_eq, toNat_append_eq]; omega

end Sys2Proof
end

