-- ==== Sys2Proof/Tests/Slice0.lean ====
section
/-! SUPPORT. Tests on fixed values from the spec (95_test_vectors), and one witness for each statement with hypotheses. -/

namespace Sys2Proof.Machine

-- One theorem after another: each evaluation in the kernel would otherwise hold a thread of its own.
set_option Elab.async false

/-! ## Helpers -/

/-- What a projection reads after the one step that executes the command word `w`; none when the step stops. -/
def after {α : Type} (f : State → α) (w : Nat) (s : State) : Option α :=
  match step (s.withFetchWord 32 w) with
  | .next t => some (f t)
  | _ => none

/-- What a projection reads of a next state; none when the machine stops. -/
def got {α : Type} (f : State → α) : Result → Option α
  | .next t => some (f t)
  | _ => none

/-- The fault an answer stops with, if it does. -/
def faultOf : Result → Option Fault
  | .fault f => some f
  | _ => none

/-- The refusal an answer stops with, if it does. -/
def refusalOf : Result → Option Refusal
  | .refused r => some r
  | _ => none

/-- Registers a pixel command writes: RES_CODE, RES_DELTA as a signed integer, and the three balances. -/
def pixelRegs (s : State) : Sym × Int × Int × Int × Int :=
  (s.resCode, s.resDelta.toInt, s.bal.c0.toInt, s.bal.c1.toInt, s.bal.c2.toInt)

/-- Reset, with the balances given. -/
def withBal (a b c : Int) : State := { State.reset with bal := ⟨enc8 a, enc8 b, enc8 c⟩ }

/-- Reset, with the size of an image. -/
def withSize (w h : Nat) : State := { State.reset with imgW := field12 w, imgH := field12 h }

/-- 2.7.1: the grayscale 3 x 2 image. -/
def gray32 : State := { State.reset with
  imgW := 3, imgH := 2, imgC := 1, img := [(0, 0x00), (1, 0xFF), (2, 0x10), (3, 0x80), (4, 0x01), (5, 0xF0)] }

/-- 2.7.2: the colour 2 x 2 image. -/
def rgb22 : State := { State.reset with
  imgW := 2, imgH := 2, imgC := 3
  img := [(0, 0x00), (1, 0x55), (2, 0xFF), (3, 0x0F), (4, 0xF0), (5, 0x80), (6, 0xAA), (7, 0x01), (8, 0x10),
    (9, 0xFF), (10, 0xFF), (11, 0xFF)] }

/-- A frame of two rows of one position, held at row `cur` in the mode `ctrl`. -/
def frame21 (cur : BitVec 12) (ctrl : BitVec 3) : State := { State.reset with
  fbW := 1, fbH := 2, cur := cur, ctrl := ctrl, fb := [[⟨0x100, 0x1FF, 0x200⟩], [⟨0x180, 0x180, 0x180⟩]] }

/-- A line of one position, held. -/
def line1 : State := { State.reset with lineValid := true, lineLen := 1, lb := [⟨0x100, 0x1FF, 0x200⟩] }

/-! ## WellFormed -/

theorem test_wf_refuses_enc_channel_3 : Instr.wf (.enc 3 0) = false := by decide
theorem test_wf_refuses_fenc_channel_3 : Instr.wf (.fenc 3 0) = false := by decide
theorem test_wf_refuses_lutrd_state_3 : Instr.wf (.lutrd 3 0) = false := by decide
theorem test_wf_takes_the_bounds :
    Instr.wf (.enc 2 0xFF) = true ∧ Instr.wf (.lutrd 2 0) = true ∧ Instr.wf (.blkrd 4095 4095) = true := by decide

/-- R242, U17: a mode whose active window and porches exceed its total is refused. -/
theorem test_params_refuse_narrow_total :
    Params.wf { Params.default with modes := { ModeTable.default with g640x480 := ⟨800, 525, 16, 10, 145, 33⟩ } } = false := by
  decide
/-- R8: any other total of 640 x 480 than 800 x 525 is refused; another total of another mode is a parameter. -/
theorem test_params_fix_the_source_total :
    Params.wf { Params.default with modes := { ModeTable.default with g640x480 := ⟨801, 525, 16, 10, 48, 33⟩ } } = false ∧
    Params.wf { Params.default with modes := { ModeTable.default with g640x480 := ⟨800, 524, 16, 10, 48, 33⟩ } } = false ∧
    Params.wf { Params.default with modes := { ModeTable.default with g800x600 := ⟨1057, 629, 40, 1, 88, 23⟩ } } = true := by
  decide
/-- R9: MAX_H below a total is refused, and so is MAX_W above 4095. -/
theorem test_params_refuse_maxima :
    Params.wf { Params.default with maxH := 1124 } = false ∧ Params.wf { Params.default with maxW := 4096 } = false := by
  decide

/-! ## Decode: words written out bit by bit from R121 to R125 -/

theorem test_decode_nop : decode 0b00000000000000000000000000000000 = .ok .nop := by decide
/-- `ENC 1, 0xFF`: reserved 14, PIX 8, CH 2, OPC 8 bits. -/
theorem test_decode_enc : decode 0b00000000000000_11111111_01_00000001 = .ok (.enc 1 0xFF) := by decide
theorem test_decode_fenc : decode 0b00000000000000_00001111_10_00000010 = .ok (.fenc 2 0x0F) := by decide
theorem test_decode_balrst : decode 0b000000000000000000000_101_00000011 = .ok (.balrst 5) := by decide
theorem test_decode_lutrd : decode 0b00000000000000_10000000_10_00000100 = .ok (.lutrd 2 0x80) := by decide
/-- `BLKRD 752, 491`: Y 12, X 12, OPC 8 bits. -/
theorem test_decode_blkrd : decode 0b000111101011_001011110000_00000101 = .ok (.blkrd 752 491) := by decide
theorem test_decode_compose : decode 0b000000000000000000000000_00000110 = .ok .compose := by decide
theorem test_decode_fetch : decode 0b000000000000000000000000_00000111 = .ok .fetch := by decide
theorem test_decode_clrerr : decode 0b000000000000000000000000_00001000 = .ok .clrerr := by decide
theorem test_decode_srst : decode 0b000000000000000000000000_00001001 = .ok .srst := by decide

/-- 2.9: the illegal words, each by its ground. -/
theorem test_decode_illegal :
    decode 0x00000100 = .error .reservedBits ∧ decode 0x00000301 = .error .channel3 ∧
    decode 0x00040001 = .error .reservedBits ∧ decode 0x00000803 = .error .reservedBits ∧
    decode 0x00000304 = .error .state3 ∧ decode 0x80000009 = .error .reservedBits ∧
    decode 0x0000000A = .error .reservedOpcode ∧ decode 0x000000FF = .error .reservedOpcode := by decide

/-- R131: the assembler's examples. -/
theorem test_encode_examples :
    encode (.enc 0 0) = 0x00000001 ∧ encode (.enc 1 0xFF) = 0x0003FD01 ∧ encode (.blkrd 100 100) = 0x06406405 ∧
    encode (.lutrd 0 0xFF) = 0x0003FC04 ∧ encode (.balrst 7) = 0x00000703 := by decide

theorem test_decodeTableWord : decodeTableWord 32 0x0003FD01 = some (.enc 1 0xFF) ∧ decodeTableWord 32 0x0A = none := by decide

/-! ## One step of each command -/

/-- R350: NOP from reset leaves every register at its reset value. -/
theorem test_nop : after (fun s => (statusWord s, s.bal, s.cur)) 0x00000000 .reset = some (0, ⟨0, 0, 0⟩, 0) := by
  decide +kernel

/-- 2.2: 0x00 at -8 takes case 2. -/
theorem test_enc_negative : after pixelRegs 0x00000001 (withBal (-8) 0 0) = some (0x3FF, 10, 2, 0, 0) := by decide +kernel
/-- 2.2: 0x33 at the lower end of the counter, on channel 2. -/
theorem test_enc_extreme : after pixelRegs 0x0000CE01 (withBal 0 0 (-128)) = some (0x3EE, 6, 0, 0, -122) := by decide +kernel

/-- 2.3: the popcount-4 tie at -1. -/
theorem test_fenc_tie : after pixelRegs 0x00003C02 (withBal (-1) 0 0) = some (0x3FA, 6, 5, 0, 0) := by decide +kernel
/-- 2.3: 0xFF at the upper end of the counter, on channel 1. -/
theorem test_fenc_extreme : after pixelRegs 0x0003FD02 (withBal 0 127 0) = some (0x200, -8, 0, 119, 0) := by decide +kernel

/-- 2.5: mask 5 zeroes channels 0 and 2. -/
theorem test_balrst : after pixelRegs 0x00000503 (withBal (-8) 4 2) = some (0, 0, 0, 4, 0) := by decide +kernel

/-- 2.4: `LUTRD 0x01, 2`. -/
theorem test_lutrd : after pixelRegs 0x00000604 .reset = some (0x300, -6, 0, 0, 0) := by decide +kernel
/-- 2.4: ST = 3 raises E_CMD. -/
theorem test_lutrd_state_3 : after (fun s => (statusWord s, s.resCode)) 0x0003FF04 .reset = some (0x00000102, 0) := by
  decide +kernel

/-- 2.6: (752, 491) of 640 x 480 is the first column of the right band. -/
theorem test_blkrd : after (·.resCode) 0x1EB2F005 (withSize 640 480) = some 0x154 := by decide +kernel
/-- 2.6: E_RANGE at x = 800; E_RES for 480 x 640, which is no key. -/
theorem test_blkrd_errors :
    after statusWord 0x00032005 (withSize 640 480) = some 0x00010502 ∧
    after statusWord 0x00000005 (withSize 480 640) = some 0x00000302 := by decide +kernel

/-- 2.7.1: the grayscale frame and the balances after its last row. -/
theorem test_compose_gray :
    after (fun s => (s.fb, s.bal, s.fbW, s.fbH)) 0x00000006 gray32 = some
      ([[Tri.all 0x100, Tri.all 0x0FF, Tri.all 0x1F0], [Tri.all 0x180, Tri.all 0x1FF, Tri.all 0x205]],
        Tri.all (enc8 (-2)), 3, 2) := by decide +kernel
/-- 2.7.3: the colour image in passthrough, with BLANK_EN set and ignored. -/
theorem test_compose_passthrough :
    after (fun s => (s.fb, s.bal)) 0x00000006 { rgb22 with ctrl := 5, bal := ⟨5, 6, 7⟩ } = some
      ([[⟨0x000, 0x055, 0x0FF⟩, ⟨0x00F, 0x0F0, 0x080⟩], [⟨0x0AA, 0x001, 0x010⟩, ⟨0x0FF, 0x0FF, 0x0FF⟩]],
        ⟨5, 6, 7⟩) := by decide +kernel

/-- R282, 2.7.5: a COMPOSE that reads an unwritten cell faults. -/
theorem test_compose_unwritten :
    faultOf (step (State.withFetchWord { gray32 with img := [(0, 0), (1, 0), (2, 0), (3, 0), (4, 0)] } 32 0x00000006)) =
      some .unwrittenImage := by decide +kernel

/-- 2.8: the last row in loop mode wraps CUR. -/
theorem test_fetch_wraps :
    after (fun s => (s.lineNo, s.lineLen, s.cur, s.lineValid)) 0x00000007 (frame21 1 0) = some (1, 1, 0, true) ∧
    after (·.lb) 0x00000007 (frame21 1 0) = some [⟨0x180, 0x180, 0x180⟩] := by decide +kernel
/-- 2.8: past the last row in one-shot mode, end of stream. -/
theorem test_fetch_end :
    after (fun s => (s.lineLen, s.cur, s.eos, s.lineValid, s.err)) 0x00000007 (frame21 2 2) = some
      (0, 2, true, false, false) := by decide +kernel

/-- R353: CLRERR after E_RES. -/
theorem test_clrerr :
    after statusWord 0x00000008 { State.reset with err := true, errCode := 3 } = some 0 := by decide +kernel

/-- R355: SRST zeroes the registers and keeps the IMG contents. -/
theorem test_srst :
    after (fun s => (statusWord s, s.fbH, s.bal, s.imgW, s.img.length)) 0x00000009 { gray32 with bal := ⟨1, 2, 3⟩ } = some
      (0, 0, ⟨0, 0, 0⟩, 0, 6) := by decide +kernel

/-! ## The bus -/

/-- R33: the CMD write, then E_BUSY for the next one. -/
theorem test_cmd_then_busy :
    got (fun s => (s.busy, s.pending)) (hostWrite 0 4 7 .reset) = some (true, 7) ∧
    got statusWord (hostWrite 0 4 7 { State.reset with busy := true }) = some 0x00000603 := by decide +kernel

/-- R40: BAL1 is written from w[7:0] and reads back sign-extended. -/
theorem test_bal_readback :
    got (fun s => got (·.rdata) (hostRead 0x24 4 s)) (hostWrite 0x24 4 0xABCDEFF8 .reset) = some (some 0xFFFFFFF8) := by
  decide +kernel

/-- R47: G_HTOTAL of 640 x 480, and MODE_HIT. -/
theorem test_geometry_readback :
    got (·.rdata) (hostRead 0x40 4 (withSize 640 480)) = some 800 ∧
    got (·.rdata) (hostRead 0x04 4 (withSize 640 480)) = some 0x00010000 := by decide +kernel

/-! ## Witnesses: the hypotheses of each statement are met -/

theorem test_witness_EngineStepRunsTheDecodedCommand :
    (State.reset.engineNext ∧ State.reset.rst = false ∧ State.reset.busy = false) ∧
    (State.engineNext (State.withFetchWord .reset 32 6) ∧ (State.withFetchWord .reset 32 6).rst = false ∧
      (State.withFetchWord .reset 32 6).busy = true ∧ decode (State.withFetchWord .reset 32 6).pending = .ok .compose) :=
  ⟨⟨.inr rfl, rfl, rfl⟩, .inl rfl, rfl, rfl, by decide⟩

/-- The two host's turns of EngineStepRunsTheDecodedCommand: a read of STATUS, and a write of IMG_H that the step carries out. -/
theorem test_witness_HostTurnIsTheAccess :
    (State.schedule { State.reset with schedule := [.read 4 4] }).head? = some (.read 4 4) ∧
    got (fun s => (s.rdata, s.schedule)) (step { withSize 640 480 with schedule := [.read 4 4] }) = some (0x00010000, []) ∧
    (State.schedule { State.reset with schedule := [.write 0x10 4 480] }).head? = some (.write 0x10 4 480) ∧
    got (fun s => (s.imgW, s.imgH)) (step { State.reset with schedule := [.write 0x10 4 480] }) = some (0, 480) := by
  decide +kernel

theorem test_witness_CmdWriteIsAccepted :
    (State.reset.busy = false ∧ State.reset.err = false) ∧
    ((8 : Word).toNat % 256 = 8 ∧ (0xFFFFFF08 : Word).toNat % 256 = 8 ∧ (9 : Word).toNat % 256 = 9) := by decide

theorem test_witness_GeometryReadback :
    IsKey (withSize 640 480) .m640x480 ∧ IsKey (withSize 1920 1080) .m1920x1080 ∧ (∀ m, ¬ IsKey State.reset m) :=
  ⟨⟨rfl, rfl⟩, ⟨rfl, rfl⟩, by intro m; cases m <;> simp [IsKey, State.reset, VideoMode.hActive]⟩

/-- The first and the last offset of the map with BUSY = 0, and two neighbours of one shape that are not swapped. -/
theorem test_witness_RegisterWrites :
    State.reset.busy = false ∧
    got (·.busy) (hostWrite 0x000 4 0 .reset) = some true ∧ got (·.rdata) (hostRead 0x054 4 (withSize 640 480)) = some 33 ∧
    got (·.rdata) (hostRead 0x02C 4 (frame21 0 0)) = some 1 ∧ got (·.rdata) (hostRead 0x030 4 (frame21 0 0)) = some 2 := by
  decide +kernel

/-- The boundaries of the map: the last register, the first reserved offset, each window's ends, width and alignment. -/
theorem test_witness_BusErrorsExactly :
    locate .reset 0x54 4 = .ok (.reg .gVbp) ∧ locate .reset 0x58 4 = .error .reservedOffset ∧
    locate .reset 0x100 4 = .error .unmapped ∧ locate .reset 0x0FFFFFFC 4 = .error .unmapped ∧
    locate .reset 0x10000000 4 = .ok (.img 0) ∧ locate .reset (0x10000000 + 4 * 7424999) 4 = .ok (.img 7424999) ∧
    locate .reset (0x10000000 + 4 * 7425000) 4 = .error .unmapped ∧
    locate (frame21 0 0) 0x20000014 4 = .ok (.fb 5) ∧ locate (frame21 0 0) 0x20000018 4 = .error .unmapped ∧
    locate line1 0x30000008 4 = .ok (.lb 2) ∧ locate line1 0x3000000C 4 = .error .unmapped ∧
    locate .reset 0x30000000 4 = .error .unmapped ∧
    locate .reset 0x00000002 4 = .error .unaligned ∧ locate .reset 0x00000004 2 = .error .width := by decide +kernel

theorem test_witness_ImgWindow :
    gray32.busy = false ∧ 7424999 < imgCap gray32 ∧ Memory.read? gray32.img 5 = some 0xF0 ∧
    Memory.read? gray32.img 7424999 = none ∧ imgCap gray32 ≤ 7425000 ∧ 0x10000000 + 4 * 7425000 < 0x20000000 := by
  decide +kernel

theorem test_witness_HoldsFrame (cur : BitVec 12) (ctrl : BitVec 3) : HoldsFrame (frame21 cur ctrl) := by
  intro r hr
  have hr' : r < 2 := hr
  interval_cases r
  · exact ⟨_, rfl, le_refl 1⟩
  · exact ⟨_, rfl, le_refl 1⟩

theorem test_witness_FbWindow :
    (frame21 0 0).busy = false ∧ HoldsFrame (frame21 0 0) ∧ 1 < (frame21 0 0).fbH.toNat ∧ 0 < (frame21 0 0).fbW.toNat ∧
    (frame21 0 0).fbW.toNat * (frame21 0 0).fbH.toNat * 3 ≤ 6 ∧ 0x20000000 + 4 * 6 < 0x30000000 :=
  ⟨rfl, test_witness_HoldsFrame 0 0, by decide, by decide, by decide, by decide⟩

theorem test_witness_LbWindow :
    (line1.busy = false ∧ line1.lineValid = true ∧ HoldsLine line1 ∧ 0 < line1.lineLen.toNat ∧
      line1.lineLen.toNat * 3 ≤ 3 ∧ 0x30000000 + 4 * 3 < 2 ^ 32) ∧
    (State.reset.busy = false ∧ State.reset.lineValid = false ∧ 0x30000000 + 4 * 0 < 2 ^ 32) :=
  ⟨⟨rfl, rfl, fun _ => le_refl 1, by decide, by decide, by decide⟩, rfl, rfl, by decide⟩

theorem test_witness_AccessesWhileBusy :
    locate { State.reset with busy := true } 0x04 4 = .ok (.reg .status) ∧
    locate { State.reset with busy := true } 0x00 4 = .ok (.reg .cmd) ∧
    locate { State.reset with busy := true } 0x08 4 = .ok (.reg .ctrl) ∧
    locate { State.reset with busy := true } 0x10000000 4 = .ok (.img 0) := by decide +kernel

theorem test_witness_OnlyComposeWritesFrame :
    got (·.busy) (step (State.withFetchWord .reset 32 7)) = some false ∧ (State.withFetchWord .reset 32 7).rst = false ∧
    (State.withFetchWord .reset 32 7).schedule.head? ≠ some (.rst true) ∧
    decode (State.withFetchWord .reset 32 7).pending ≠ .ok .compose := by decide +kernel

theorem test_witness_DecodeEncodeRoundTrip :
    Instr.wf (.enc 2 0xFF) = true ∧ Instr.wf (.blkrd 0xFFF 0xFFF) = true ∧ Instr.wf (.balrst 7) = true := by decide

theorem test_witness_DecodedWordIsTheEncoding : decode 0xFFFFFF05 = .ok (.blkrd 0xFFF 0xFFF) := by decide

theorem test_witness_IllegalWordRaisesCmdError :
    State.engineNext (State.withFetchWord .reset 32 0x301) ∧ (State.withFetchWord .reset 32 0x301).rst = false ∧
    (State.withFetchWord .reset 32 0x301).busy = true ∧ IllegalWord (State.withFetchWord .reset 32 0x301).pending :=
  ⟨.inl rfl, rfl, rfl, by unfold IllegalWord; decide⟩

/-- The three balance ranges at their ends, and the smallest counter width. -/
theorem test_witness_CoderDeltaRange :
    (-2 ^ (5 - 1) ≤ (-16 : Int) ∧ (-16 : Int) ≤ 2 ^ (5 - 1) - 1) ∧ (1 ≤ (127 : Int) ∧ (127 : Int) ≤ 127) ∧
    ((-128 : Int) ≤ -1 ∧ -128 ≤ (-128 : Int)) := by decide

theorem test_witness_BalancesReachableFromZero : (8 : Int) ∈ [(-8 : Int), -6, -4, -2, 0, 2, 4, 6, 8] := by decide

theorem test_witness_CodeTransitionBounds : transitions (toBits (0x33 : Byte)) = 3 ∧ transitions (toBits (0x55 : Byte)) = 7 := by
  decide

/-- Both ends of the default 640 x 480 window (R252). -/
theorem test_witness_ActiveWindowIsCentre :
    let g := Platform.default.params.modes.get .m640x480
    (g.hFrontPorch ≤ 16 ∧ g.vFrontPorch ≤ 10) ∧ (655 < g.hFrontPorch + 640 ∧ 489 < g.vFrontPorch + 480) := by decide

theorem test_witness_BlankingRegionSizes :
    0 < (Platform.default.params.modes.get .m640x480).hFrontPorch ∧
    0 < (Platform.default.params.modes.get .m640x480).vFrontPorch := by decide

/-- Both sides of each band edge, and the last position, lie in the total frame. -/
theorem test_witness_BlkrdResult :
    IsKey (withSize 640 480) .m640x480 ∧
    (let g := (withSize 640 480).platform.params.modes.get .m640x480
     (16 : BitVec 12).toNat < g.hTotal ∧ (752 : BitVec 12).toNat < g.hTotal ∧ (799 : BitVec 12).toNat < g.hTotal ∧
     (10 : BitVec 12).toNat < g.vTotal ∧ (492 : BitVec 12).toNat < g.vTotal ∧ (524 : BitVec 12).toNat < g.vTotal) :=
  ⟨⟨rfl, rfl⟩, by decide⟩

theorem test_witness_BlkrdErrors :
    (∀ m, ¬ IsKey (withSize 480 640) m) ∧ IsKey (withSize 640 480) .m640x480 ∧
    ((withSize 640 480).platform.params.modes.get .m640x480).hTotal ≤ (800 : BitVec 12).toNat ∧
    ((withSize 640 480).platform.params.modes.get .m640x480).vTotal ≤ (525 : BitVec 12).toNat :=
  ⟨by intro m; cases m <;> simp [IsKey, withSize, field12, VideoMode.hActive], ⟨rfl, rfl⟩, by decide, by decide⟩

theorem test_witness_ShapeOk_gray : ShapeOk gray32 := ⟨.inl rfl, by decide, by decide, by decide, by decide⟩

theorem test_witness_ImageWritten_gray : ImageWritten gray32 := by
  intro i hi
  have hi' : i < 6 := hi
  interval_cases i <;> rfl

theorem test_witness_ComposeGeometryError :
    (ShapeOk { gray32 with ctrl := 4 } ∧ (4 : BitVec 3).getLsbD 0 = false ∧ (4 : BitVec 3).getLsbD 2 = true ∧
      (∀ m, ¬ IsKey { gray32 with ctrl := 4 } m)) ∧
    (ShapeOk gray32 ∧ gray32.ctrl.getLsbD 2 = false ∧ ImageWritten gray32) :=
  ⟨⟨test_witness_ShapeOk_gray, by decide, by decide, by intro m; cases m <;> simp [IsKey, gray32, VideoMode.hActive]⟩,
    test_witness_ShapeOk_gray, by decide, test_witness_ImageWritten_gray⟩

theorem test_witness_ComposeReadsTheImage :
    ShapeOk gray32 ∧ gray32.ctrl.getLsbD 2 = false ∧ ImageWritten gray32 ∧ ShapeOk { gray32 with img := [] } ∧
    ¬ ImageWritten { gray32 with img := [] } :=
  ⟨test_witness_ShapeOk_gray, by decide, test_witness_ImageWritten_gray, test_witness_ShapeOk_gray,
    fun h => by have := h 0 (by decide); cases this⟩

theorem test_witness_ComposePassthroughFrame :
    ShapeOk { gray32 with ctrl := 1 } ∧ (1 : BitVec 3).getLsbD 0 = true ∧ ImageWritten { gray32 with ctrl := 1 } :=
  ⟨test_witness_ShapeOk_gray, by decide, test_witness_ImageWritten_gray⟩

theorem test_witness_ComposeActiveFrame :
    ShapeOk gray32 ∧ gray32.ctrl.getLsbD 0 = false ∧ gray32.ctrl.getLsbD 2 = false ∧ ImageWritten gray32 :=
  ⟨test_witness_ShapeOk_gray, by decide, by decide, test_witness_ImageWritten_gray⟩

/-! ### A blanked frame: every cell of a 640 x 480 image written -/

theorem read?_range' (a n i : Nat) (b : Byte) (h : a ≤ i ∧ i < a + n) :
    Memory.read? ((List.range' a n).map fun j => (j, b)) i = some b := by
  induction n generalizing a with
  | zero => omega
  | succ n ih =>
    simp only [List.range'_succ, List.map_cons, Memory.read?]
    split
    · rfl
    · exact ih (a + 1) (by omega)

/-- A 640 x 480 image of one channel, all 0, to be composed with blanking. -/
def blanked640 : State := { State.reset with
  imgW := 640, imgH := 480, imgC := 1, ctrl := 4, img := (List.range' 0 307200).map fun j => (j, 0) }

theorem test_witness_ComposeBlankedFrame :
    ShapeOk blanked640 ∧ blanked640.ctrl.getLsbD 0 = false ∧ blanked640.ctrl.getLsbD 2 = true ∧
    IsKey blanked640 .m640x480 ∧ ImageWritten blanked640 := by
  refine ⟨⟨.inl rfl, by decide, by decide, by decide, by decide⟩, by decide, by decide, ⟨rfl, rfl⟩, ?_⟩
  intro i hi
  have hi' : i < 307200 := hi
  have h := read?_range' 0 307200 i 0 (by omega)
  rw [show blanked640.img = (List.range' 0 307200).map fun j => (j, 0) from rfl, h]
  rfl

/-- A COMPOSE that completes, without blanking: ComposeFinalBalances, StartBalancesNeverMatter, GrayscaleChannelsAgree. -/
theorem test_witness_composed_gray :
    ∃ t, exec .compose gray32 = .next t ∧ ComposedFrom gray32 t ∧ gray32.ctrl.getLsbD 0 = false ∧ gray32.imgC = 1 := by
  obtain ⟨rows, hr⟩ := srcImage_isSome (img := gray32.img) (w := 3) (h := 2) (.inl rfl)
    (test_witness_ImageWritten_gray)
  refine ⟨composeWith rows none gray32, ?_, rfl, by decide, rfl⟩
  exact composeRead_eq_next.2 ⟨rows, hr, rfl⟩

/-- The same in passthrough: GrayscaleChannelsAgree. -/
theorem test_witness_composed_passthrough :
    ∃ t, exec .compose { gray32 with ctrl := 1 } = .next t ∧ ComposedFrom { gray32 with ctrl := 1 } t ∧
      (1 : BitVec 3).getLsbD 0 = true := by
  obtain ⟨rows, hr⟩ := srcImage_isSome (img := gray32.img) (w := 3) (h := 2) (.inl rfl)
    (test_witness_ImageWritten_gray)
  refine ⟨composeWith rows none { gray32 with ctrl := 1 }, ?_, rfl, by decide⟩
  exact (composeRead_eq_next (s := { gray32 with ctrl := 1 }) (g := none)).2 ⟨rows, hr, rfl⟩

/-- The same with blanking: the other case of GrayscaleChannelsAgree. -/
theorem test_witness_composed_blanked :
    ∃ t, exec .compose blanked640 = .next t ∧ ComposedFrom blanked640 t ∧ blanked640.imgC = 1 ∧
      blanked640.ctrl.getLsbD 0 = false ∧ blanked640.ctrl.getLsbD 2 = true ∧ IsKey blanked640 .m640x480 := by
  obtain ⟨rows, hr⟩ := srcImage_isSome (img := blanked640.img) (w := 640) (h := 480) (ch := 1) (.inl rfl)
    test_witness_ComposeBlankedFrame.2.2.2.2
  have hg : geom blanked640 = some (blanked640.platform.params.modes.get .m640x480) :=
    geom_eq_some.2 ⟨.m640x480, rfl, rfl, rfl⟩
  refine ⟨composeWith rows (some (blanked640.platform.params.modes.get .m640x480)) blanked640, ?_, rfl, rfl, by decide, by decide, ⟨rfl, rfl⟩⟩
  rcases execCompose_cases blanked640 with ⟨h, -⟩ | ⟨-, -, -, h, -⟩ | ⟨g, -, -, -, h, he⟩ | ⟨-, h, -⟩
  · rw [shapeBad_eq_false.2 test_witness_ComposeBlankedFrame.1] at h; cases h
  · rw [hg] at h; cases h
  · rw [hg] at h; cases h
    exact he.trans (composeRead_eq_next.2 ⟨rows, hr, rfl⟩)
  · exact absurd h (by decide)

theorem test_witness_FetchWithoutRow :
    State.reset.fbH = 0 ∧ (frame21 2 2).fbH ≠ 0 ∧ (frame21 2 2).fbH.toNat ≤ (frame21 2 2).cur.toNat ∧
    (frame21 2 2).ctrl.getLsbD 1 = true := by decide

/-- The last row, and the wrap of a loop entered after one-shot mode ended. -/
theorem test_witness_FetchServesRow :
    (HoldsFrame (frame21 1 0) ∧ (frame21 1 0).cur.toNat < (frame21 1 0).fbH.toNat) ∧
    (HoldsFrame (frame21 2 0) ∧ (frame21 2 0).fbH ≠ 0 ∧ (frame21 2 0).fbH.toNat ≤ (frame21 2 0).cur.toNat ∧
      (frame21 2 0).ctrl.getLsbD 1 = false) :=
  ⟨⟨test_witness_HoldsFrame 1 0, by decide⟩, test_witness_HoldsFrame 2 0, by decide, by decide, by decide⟩

theorem test_witness_LoopServesRowsInTurn :
    HoldsFrame (frame21 0 0) ∧ (frame21 0 0).fbH ≠ 0 ∧ (frame21 0 0).ctrl.getLsbD 1 = false ∧ (frame21 0 0).cur = 0 :=
  ⟨test_witness_HoldsFrame 0 0, by decide, by decide, rfl⟩

theorem test_witness_OneShotServesEachRowOnce :
    HoldsFrame (frame21 0 2) ∧ (frame21 0 2).fbH ≠ 0 ∧ (frame21 0 2).ctrl.getLsbD 1 = true ∧ (frame21 0 2).cur = 0 :=
  ⟨test_witness_HoldsFrame 0 2, by decide, by decide, rfl⟩

theorem test_witness_SrstResult : 0x20000000 ≤ (0x20000000 : Word).toNat ∧ 0x20000000 ≤ (0xFFFFFFFF : Word).toNat := by decide

/-- Each command that can raise, raising: FailedCommandIsPrecise, and each case of ErrorsOfEachCommand. -/
theorem test_witness_FailedCommandIsPrecise :
    got (·.errLog) (exec (.enc 3 0) .reset) = some [.cmd] ∧ got (·.errLog) (exec (.fenc 3 0) .reset) = some [.cmd] ∧
    got (·.errLog) (exec (.lutrd 3 0) .reset) = some [.cmd] ∧
    got (·.errLog) (exec (.blkrd 0 0) .reset) = some [.res] ∧
    got (·.errLog) (exec (.blkrd 800 0) (withSize 640 480)) = some [.range] ∧
    got (·.errLog) (exec .compose .reset) = some [.shape] ∧
    got (·.errLog) (exec .compose { gray32 with ctrl := 4 }) = some [.res] ∧
    got (·.errLog) (exec .fetch .reset) = some [.empty] := by decide +kernel

theorem test_witness_CommandsDroppedWhileError :
    State.busy { State.reset with err := true, errCode := 2 } = false ∧
    State.err { State.reset with err := true, errCode := 2 } = true ∧ (7 : Word).toNat % 256 ≠ 8 ∧
    (10 : Word).toNat % 256 ≠ 9 := by decide

theorem test_witness_ErrorHistoryOnlyGrows :
    got (·.errLog) (step (State.withFetchWord .reset 32 6)) = some [.shape] ∧
    got (·.errLog) (step (State.withFetchWord .reset 32 0)) = some [] := by decide +kernel

theorem test_witness_HardwareReset_asserted :
    (State.schedule { gray32 with busy := true, schedule := [.rst true] }).head? = some (.rst true) ∧
    got (fun s => (s.rst, s.busy, s.img, s.imgW)) (step { gray32 with busy := true, schedule := [.rst true] }) =
      some (true, false, [], 0) ∧
    (State.schedule { gray32 with rst := true }) = [] ∧
    got (fun s => (s.rst, s.imgW)) (step { gray32 with rst := true }) = some (true, 0) := by decide +kernel

theorem test_witness_HardwareReset_released :
    (State.schedule { gray32 with rst := true, schedule := [.rst false] }).head? = some (.rst false) ∧
    got (fun s => (s.rst, s.imgW)) (step { gray32 with rst := true, schedule := [.rst false] }) = some (false, 3) := by
  decide +kernel

theorem test_witness_HardwareReset_access :
    refusalOf (step { State.reset with rst := true, schedule := [.read 4 4] }) = some .accessDuringReset ∧
    refusalOf (step { State.reset with rst := true, schedule := [.write 0 4 0] }) = some .accessDuringReset := by decide +kernel

theorem test_witness_PlatformIsFixed : got (·.platform) (step .reset) = some Platform.default := by decide +kernel

/-- The state after reset is legal, and the step from it answers a next state: EveryStepKeepsLegality, and
LegalStatesNeverReadUnwrittenSymbols. -/
theorem test_witness_EveryStepKeepsLegality : State.reset.Inv ∧ step .reset = .next .reset :=
  ⟨inv_rstLow (inv_hardReset .reset), rfl⟩

end Sys2Proof.Machine
end

section
/-! Proofs of the statements about the three windows of the host bus (20_memory R83 to R85). -/

namespace Sys2Proof.Machine

variable {s : State}

/-! ## The window's index -/

/-- The channel an interleaved index addresses (R84, R85). -/
theorem finOfNat_interleaved (p : Nat) (c : Fin 3) : Fin.ofNat 3 (p * 3 + c.val) = c := by
  apply Fin.ext
  rw [Fin.val_ofNat]
  omega

/-- Element (y x FB_W + x) x 3 + c of the FB window is FB[y][x][c] (R84). -/
theorem fbElem?_index {x : Nat} (hx : x < s.fbW.toNat) (y : Nat) (c : Fin 3) :
    fbElem? s ((y * s.fbW.toNat + x) * 3 + c.val) = fbCell? s y x c := by
  have hpos : ((y * s.fbW.toNat + x) * 3 + c.val) / 3 = s.fbW.toNat * y + x := by
    rw [Nat.mul_comm y]; omega
  have hrow : (s.fbW.toNat * y + x) / s.fbW.toNat = y := by
    rw [Nat.mul_add_div (by omega), Nat.div_eq_of_lt hx, Nat.add_zero]
  have hcol : (s.fbW.toNat * y + x) % s.fbW.toNat = x := by rw [Nat.mul_add_mod, Nat.mod_eq_of_lt hx]
  simp only [fbElem?, finOfNat_interleaved, hpos, hrow, hcol]

/-- Element 3x + c of the LB window is LB[x][c] (R85). -/
theorem lbElem?_index (x : Nat) (c : Fin 3) : lbElem? s (x * 3 + c.val) = lbCell? s x c := by
  have hpos : (x * 3 + c.val) / 3 = x := by omega
  simp only [lbElem?, finOfNat_interleaved, hpos]

/-- The index of a cell of the frame held is below FB_W x FB_H x 3 (R84). -/
theorem fbIndex_lt_fbCount {y x : Nat} (hy : y < s.fbH.toNat) (hx : x < s.fbW.toNat) (c : Fin 3) :
    (y * s.fbW.toNat + x) * 3 + c.val < fbCount s := by
  have hrows : (y + 1) * s.fbW.toNat ≤ s.fbH.toNat * s.fbW.toNat := Nat.mul_le_mul_right _ hy
  rw [Nat.add_one_mul] at hrows
  rw [fbCount, Nat.mul_comm s.fbW.toNat]
  omega

/-! ## The cells held -/

/-- Every cell of the rectangle FB_W x FB_H is written when FB holds the frame (R49). -/
theorem fbCell?_of_holdsFrame (h : HoldsFrame s) {y x : Nat} (hy : y < s.fbH.toNat) (hx : x < s.fbW.toNat)
    (c : Fin 3) : ∃ v, fbCell? s y x c = some v := by
  obtain ⟨row, hrow, hlen⟩ := h y hy
  have hcell : row[x]? = some row[x] := List.getElem?_eq_getElem (by omega)
  exact ⟨row[x].get c, by simp [fbCell?, hrow, hcell]⟩

/-- Every cell of the LINE_LEN positions is written when LB holds the line (R50). -/
theorem lbCell?_of_holdsLine (h : HoldsLine s) (hv : s.lineValid = true) {x : Nat} (hx : x < s.lineLen.toNat)
    (c : Fin 3) : ∃ v, lbCell? s x c = some v := by
  have hlen := h hv
  have hcell : s.lb[x]? = some s.lb[x] := List.getElem?_eq_getElem (by omega)
  exact ⟨s.lb[x].get c, by simp [lbCell?, hcell]⟩

/-- The LB window's size while LINE_VALID = 1 (R85). -/
theorem lbCount_of_lineValid (hv : s.lineValid = true) : lbCount s = s.lineLen.toNat * 3 := by simp [lbCount, hv]

/-- Where no element of the LB window lies: everywhere while LINE_VALID = 0, else from LINE_LEN x 3 on (R85). -/
theorem lbCount_le_of_beyond {i : Nat} (h : s.lineValid = false ∨ s.lineLen.toNat * 3 ≤ i) : lbCount s ≤ i := by
  unfold lbCount
  split
  · next hv => exact h.resolve_left (by simp [hv])
  · exact Nat.zero_le i

/-! ## Writes of the read-only windows -/

/-- Every write at or above the FB window's base is a bus error, past the window's end or within it (R84). -/
theorem hostWrite_fb_fault (hb : s.busy = false) {i : Nat} (hi : fbBase + 4 * i < lbBase) (v : Word) :
    ∃ e, hostWrite (BitVec.ofNat 32 (fbBase + 4 * i)) 4 v s = .fault (.busError e) := by
  rcases Nat.lt_or_ge i (fbCount s) with h | h
  · exact ⟨.readOnlyWindow, hostWrite_idle hb (locate_fb h)⟩
  · exact ⟨.unmapped, hostWrite_error (locate_fb_beyond h hi)⟩

/-- Every write at or above the LB window's base is a bus error, past the window's end or within it (R85). -/
theorem hostWrite_lb_fault (hb : s.busy = false) {i : Nat} (hi : lbBase + 4 * i < 2 ^ 32) (v : Word) :
    ∃ e, hostWrite (BitVec.ofNat 32 (lbBase + 4 * i)) 4 v s = .fault (.busError e) := by
  rcases Nat.lt_or_ge i (lbCount s) with h | h
  · exact ⟨.readOnlyWindow, hostWrite_idle hb (locate_lb h)⟩
  · exact ⟨.unmapped, hostWrite_error (locate_lb_beyond h hi)⟩

/-! ## The statements -/

/-- Settles O8: an index below IMG_CAP is located in IMG, where read-after-write holds; from IMG_CAP on it is unmapped. -/
theorem imgWindow : Obligations.ImgWindow := by
  intro s i hb
  refine ⟨fun hi => ⟨fun v => ?_, fun b hread => ?_, fun hread => ?_⟩, fun hi hend v => ⟨?_, ?_⟩⟩
  · exact ⟨imgWrite i (v.extractLsb' 0 8) s, hostWrite_idle hb (locate_img hi), rfl, Memory.read?_write_same _ _ _,
      fun j hj => Memory.read?_write_other _ _ hj⟩
  · exact (hostRead_idle hb (locate_img hi)).trans (readIdle_img hread)
  · exact ⟨Config.freeByte s.draws, (hostRead_idle hb (locate_img hi)).trans (readIdle_img_unwritten hread)⟩
  · exact hostRead_error (locate_img_beyond hi hend)
  · exact hostWrite_error (locate_img_beyond hi hend)

/-- Settles O9: the index of a cell of the frame held lies in the window and addresses that cell, which HoldsFrame has written. -/
theorem fbWindow : Obligations.FbWindow := by
  intro s hb
  refine ⟨fun hframe y x c hy hx => ?_, fun i hi hend => ?_, fun i v hend => ?_⟩
  · obtain ⟨v, hcell⟩ := fbCell?_of_holdsFrame hframe hy hx c
    have helem := (fbElem?_index hx y c).trans hcell
    exact ⟨v, hcell, (hostRead_idle hb (locate_fb (fbIndex_lt_fbCount hy hx c))).trans (readIdle_fb helem)⟩
  · exact hostRead_error (locate_fb_beyond hi hend)
  · exact hostWrite_fb_fault hb hend v

/-- Settles O10: with LINE_VALID = 1 the index 3x + c lies in the window and addresses LB[x][c], which HoldsLine has written;
with LINE_VALID = 0 the window has no element. -/
theorem lbWindow : Obligations.LbWindow := by
  intro s hb
  refine ⟨fun hv hline x c hx => ?_, fun i hi hend => ?_, fun i v hend => ?_⟩
  · obtain ⟨v, hcell⟩ := lbCell?_of_holdsLine hline hv hx c
    have helem := (lbElem?_index x c).trans hcell
    have hlt : x * 3 + c.val < lbCount s := by rw [lbCount_of_lineValid hv]; omega
    exact ⟨v, hcell, (hostRead_idle hb (locate_lb hlt)).trans (readIdle_lb helem)⟩
  · exact hostRead_error (locate_lb_beyond (lbCount_le_of_beyond hi) hend)
  · exact hostWrite_lb_fault hb hend v

end Sys2Proof.Machine
end

section
/-! Proofs of the statement about the illegal words of the encoding (30_encoding R128). -/

namespace Sys2Proof.Machine

variable {w : Word} {s : State}

/-! ## Which format the decoder reads a word by -/

/-- The commands without operands (R121). -/
theorem decode_formatN
    (h : w.toNat % 256 = 0 ∨ w.toNat % 256 = 6 ∨ w.toNat % 256 = 7 ∨ w.toNat % 256 = 8 ∨ w.toNat % 256 = 9) :
    ∃ i, decode w = decodeN i w := by
  simp only [← toNat_opcOf] at h
  rcases h with h | h | h | h | h <;> (rw [decode, h]; exact ⟨_, rfl⟩)

/-- ENC and FENC (R122). -/
theorem decode_formatP (h : w.toNat % 256 = 1 ∨ w.toNat % 256 = 2) : ∃ mk, decode w = decodeP mk w := by
  simp only [← toNat_opcOf] at h
  rcases h with h | h <;> (rw [decode, h]; exact ⟨_, rfl⟩)

/-- BALRST (R124). -/
theorem decode_formatM (h : w.toNat % 256 = 3) : decode w = decodeM w := by simp only [decode, toNat_opcOf, h]

/-- LUTRD (R123). -/
theorem decode_formatT (h : w.toNat % 256 = 4) : decode w = decodeT w := by simp only [decode, toNat_opcOf, h]

/-- OPC is 0x0A to 0xFF (R128). -/
theorem decode_reservedOpcode (h : 10 ≤ w.toNat % 256) : decode w = .error .reservedOpcode := by
  obtain ⟨k, hk⟩ := Nat.exists_eq_add_of_le' h
  simp only [decode, toNat_opcOf, hk]

/-! ## The operands each format refuses -/

/-- Format N refuses every operand (R121). -/
theorem decodeN_error (i : Instr) (h : w.toNat / 256 ≠ 0) : decodeN i w = .error .reservedBits :=
  if_pos ((reservedN_ne_zero w).2 h)

/-- Format M refuses an operand of more than 3 bits (R124). -/
theorem decodeM_error (h : 2 ^ 3 ≤ w.toNat / 256) : decodeM w = .error .reservedBits :=
  if_pos ((reservedM_ne_zero w).2 h)

/-- The two guards that formats P and T share: an operand of more than 10 bits, and the reserved index 3 (R122, R123). -/
theorem guardPT_error (h : 2 ^ 10 ≤ w.toNat / 256 ∨ w.toNat / 256 % 4 = 3) (e₃ : DecodeError)
    (r : Except DecodeError Instr) :
    ∃ e, (if reservedPT w ≠ 0 then .error .reservedBits else if chOf w = 3 then .error e₃ else r) = .error e := by
  by_cases hres : reservedPT w ≠ 0
  · exact ⟨_, if_pos hres⟩
  · have hidx : chOf w = 3 := (chOf_eq_three w).2 (h.resolve_left (mt (reservedPT_ne_zero w).2 hres))
    exact ⟨e₃, (if_neg hres).trans (if_pos hidx)⟩

theorem decodeP_error (mk : BitVec 2 → Byte → Instr) (h : 2 ^ 10 ≤ w.toNat / 256 ∨ w.toNat / 256 % 4 = 3) :
    ∃ e, decodeP mk w = .error e := guardPT_error h _ _

theorem decodeT_error (h : 2 ^ 10 ≤ w.toNat / 256 ∨ w.toNat / 256 % 4 = 3) : ∃ e, decodeT w = .error e :=
  guardPT_error h _ _

/-- An illegal word does not decode (R128): the opcode is reserved, or its format refuses the operands. -/
theorem decode_error_of_illegalWord (h : IllegalWord w) : ∃ e, decode w = .error e := by
  rcases h with hopc | ⟨hopc, hoperands⟩ | ⟨hopc, hoperands⟩ | ⟨hopc, hoperands⟩
  · exact ⟨_, decode_reservedOpcode hopc⟩
  · obtain ⟨i, hi⟩ := decode_formatN hopc
    exact ⟨_, hi.trans (decodeN_error i hoperands)⟩
  · rw [← or_assoc] at hopc
    rcases hopc with hopc | hopc
    · obtain ⟨mk, hmk⟩ := decode_formatP hopc
      exact hmk ▸ decodeP_error mk hoperands
    · exact decode_formatT hopc ▸ decodeT_error hoperands
  · exact ⟨_, (decode_formatM hopc).trans (decodeM_error hoperands)⟩

/-! ## The engine's turn -/

/-- Executing a word that does not decode raises E_CMD, whatever the reason (R128, R129). -/
theorem executePending_of_decode_error (h : ∃ e, decode s.pending = .error e) :
    executePending s = .next (raise .cmd s) := by
  obtain ⟨e, he⟩ := h
  rw [executePending, he]

/-- The engine's turn with BUSY = 1 and `rst` released is one whole command (R33). -/
theorem engineTurn_of_busy (hrst : s.rst = false) (hbusy : s.busy = true) :
    engineTurn s = finish (executePending s) := by
  simp [engineTurn, hrst, hbusy]

/-! ## The statement -/

/-- Settles O16: the illegal word does not decode, so the engine's turn is the raise of E_CMD; `raise` leaves all but BUSY, the
error record and its history, and the turn taken off leaves all but the schedule. -/
theorem illegalWordRaisesCmdError : Obligations.IllegalWordRaisesCmdError := by
  intro s hnext hrst hbusy hill
  have hexec : executePending s.popTurn = .next (raise .cmd s.popTurn) :=
    executePending_of_decode_error (decode_error_of_illegalWord hill)
  calc step s = engineTurn s.popTurn := step_of_engineNext hnext
    _ = finish (executePending s.popTurn) := engineTurn_of_busy hrst hbusy
    _ = finish (.next (raise .cmd s.popTurn)) := by rw [hexec]

end Sys2Proof.Machine
end

section
/-! Proofs of the statements about COMPOSE's errors, the passthrough frame and the balances a TMDS frame leaves (43_frame R281,
R284, R285, R288). -/

namespace Sys2Proof.Machine

variable {s t : State}

/-! ## What a COMPOSE that answers a next state did -/

/-- The shape check failed (R281). -/
theorem shapeBad_eq_true : shapeBad s = true ↔
    (s.imgC ≠ 1 ∧ s.imgC ≠ 3) ∨ s.imgW = 0 ∨ s.imgH = 0 ∨ s.platform.params.maxW < s.imgW.toNat ∨
      s.platform.params.maxH < s.imgH.toNat := by
  simp only [shapeBad, Bool.or_eq_true, Bool.and_eq_true, bne_iff_ne, beq_iff_eq, decide_eq_true_eq, or_assoc, gt_iff_lt]

/-- A malformed shape raises E_SHAPE, before any other check (R281). -/
theorem execCompose_of_shapeBad (h : shapeBad s = true) : execCompose s = .next (raise .shape s) := if_pos h

/-- A size that is no key has no geometry (R243). -/
theorem geom_eq_none (h : ∀ m, ¬ IsKey s m) : geom s = none := by
  refine Option.eq_none_iff_forall_ne_some.2 fun g hg => ?_
  obtain ⟨m, hw, hh, -⟩ := geom_eq_some.1 hg
  exact h m ⟨hw, hh⟩

/-- A blanked COMPOSE of a size without geometry raises E_RES (R285). -/
theorem execCompose_of_geom_none (hs : ShapeOk s) (hp : passthrough s = false) (hb : blankEn s = true)
    (hg : geom s = none) : execCompose s = .next (raise .res s) := by
  simp [execCompose, shapeBad_eq_false_iff_shapeOk.2 hs, hp, hb, hg]

/-- Without blanking, or in passthrough, COMPOSE of a written image makes no lookup and completes (R285). -/
theorem execCompose_unblanked (hs : ShapeOk s) (hm : passthrough s = true ∨ blankEn s = false) (hw : ImageWritten s) :
    ∃ rows, srcImageOf s = some rows ∧ execCompose s = .next (composeWith rows none s) := by
  obtain ⟨rows, hr⟩ := srcImageOf_isSome hs hw
  have hread : execCompose s = composeRead none s := by
    rcases hm with hm | hm <;> simp [execCompose, shapeBad_eq_false_iff_shapeOk.2 hs, hm]
  exact ⟨rows, hr, hread.trans (composeRead_eq_next.2 ⟨rows, hr, rfl⟩)⟩

/-- What COMPOSE did when it answers a next state: E_SHAPE, E_RES, or the frame of an image it has read. -/
theorem execCompose_eq_next (h : execCompose s = .next t) :
    (shapeBad s = true ∧ t = raise .shape s) ∨ (shapeBad s = false ∧ t = raise .res s) ∨
      (ShapeOk s ∧ ∃ g rows, srcImageOf s = some rows ∧ t = composeWith rows g s) := by
  rcases execCompose_cases s with ⟨hs, he⟩ | ⟨hs, -, -, -, he⟩ | ⟨g, hs, -, -, -, he⟩ | ⟨hs, -, he⟩ <;> rw [he] at h
  · exact .inl ⟨hs, (Host.Outcome.next.inj h).symm⟩
  · exact .inr (.inl ⟨hs, (Host.Outcome.next.inj h).symm⟩)
  · exact .inr (.inr ⟨shapeBad_eq_false_iff_shapeOk.1 hs, some g, composeRead_eq_next.1 h⟩)
  · exact .inr (.inr ⟨shapeBad_eq_false_iff_shapeOk.1 hs, none, composeRead_eq_next.1 h⟩)

/-! ## What the composer leaves -/

/-- A frame in passthrough (R284). -/
theorem composeWith_passthrough (hp : passthrough s = true) (rows : List (List (Tri Byte))) (g : Option Geometry) :
    composeWith rows g s = publish s.imgW s.imgH (passthroughCells rows) s.bal s := if_pos hp

/-- A COMPOSE past its checks rewinds the stream and leaves all but FB, FB_W, FB_H and BAL (R280, R290). -/
theorem composedFrom_composeWith (rows : List (List (Tri Byte))) (g : Option Geometry) (s : State) :
    ComposedFrom s (composeWith rows g s) := by
  unfold composeWith
  split
  · rfl
  · cases g <;> rfl

/-- Without geometry the frame has the image's size (R284, R287). -/
theorem composeWith_none_size (rows : List (List (Tri Byte))) (s : State) :
    (composeWith rows none s).fbW = s.imgW ∧ (composeWith rows none s).fbH = s.imgH := by
  unfold composeWith
  split <;> exact ⟨rfl, rfl⟩

/-- In TMDS mode BAL is what the last row leaves (R288). -/
theorem composeWith_bal (hp : passthrough s = false) (rows : List (List (Tri Byte))) (g : Option Geometry) :
    (composeWith rows g s).bal = finalBalances rows s.bal := by
  cases g <;> simp [composeWith, hp]

/-- A COMPOSE that completes records no error. -/
theorem ComposedFrom.errLog_eq (h : ComposedFrom s t) : t.errLog = s.errLog := by rw [h]

/-- A raise is no completed COMPOSE: it adds to the history (R393). -/
theorem not_composedFrom_raise (e : ErrCode) : ¬ ComposedFrom s (raise e s) :=
  fun h => List.cons_ne_self e s.errLog h.errLog_eq

/-- A COMPOSE that completes has read an image of an accepted shape (R281, R282). -/
theorem execCompose_composed (h : execCompose s = .next t) (hc : ComposedFrom s t) :
    ShapeOk s ∧ ∃ g rows, srcImageOf s = some rows ∧ t = composeWith rows g s := by
  rcases execCompose_eq_next h with ⟨-, rfl⟩ | ⟨-, rfl⟩ | h
  · exact absurd hc (not_composedFrom_raise _)
  · exact absurd hc (not_composedFrom_raise _)
  · exact h

/-! ## The passthrough frame -/

/-- A cell of the passthrough frame is the sample, zero-extended (R284). -/
theorem passthroughCells_getElem? (rows : List (List (Tri Byte))) (y x : Nat) (c : Fin 3) :
    ((passthroughCells rows)[y]?.bind (·[x]?)).map (·.get c) =
      (rows[y]?.bind fun row => (channelOf c row)[x]?).map (·.setWidth 16) := by
  simp only [passthroughCells, List.getElem?_map]
  cases rows[y]? with
  | none => rfl
  | some row => cases h : row[x]? <;> simp [h]

/-- The passthrough frame has the image's size (R284). -/
theorem passthroughCells_size {rows : List (List (Tri Byte))} (hr : srcImageOf s = some rows) :
    (passthroughCells rows).length = s.imgH.toNat ∧ ∀ row ∈ passthroughCells rows, row.length = s.imgW.toNat := by
  refine ⟨by simpa [passthroughCells] using (srcImage_spec hr).1, fun row hrow => ?_⟩
  obtain ⟨src, hsrc, rfl⟩ := List.mem_map.1 hrow
  simpa using srcImage_row_length hr src hsrc

/-! ## The range of the balance -/

/-- DC balancing answers a delta within -10..10 that never pushes the balance further from 0 (R166). -/
theorem dcBalance_delta_range {q : List Bool} (hq : q.length = 8) (b8 : Bool) (b : Int) :
    -10 ≤ (dcBalance q b8 b).delta ∧ (dcBalance q b8 b).delta ≤ 10 ∧
      (0 < b → (dcBalance q b8 b).delta ≤ 0) ∧ (b < 0 → 0 ≤ (dcBalance q b8 b).delta) := by
  have hones : popcount q ≤ 8 := hq ▸ popcount_le q
  have hbit : b8.toNat ≤ 1 := Bool.toNat_le b8
  simp only [dcBalance]
  split
  · split <;> (dsimp only; omega)
  · split <;> (dsimp only; omega)

/-- The range of TMDSCODE's delta, and its sign against the balance's (R166, R170). -/
theorem tmdsCode_delta_range (p : Byte) (b : Int) :
    -10 ≤ (tmdsCode p b).2 ∧ (tmdsCode p b).2 ≤ 10 ∧ (0 < b → (tmdsCode p b).2 ≤ 0) ∧ (b < 0 → 0 ≤ (tmdsCode p b).2) :=
  dcBalance_delta_range (length_qData p) (q8 p) b

/-- LUT_DELTA is the delta at the balance its column is built at, in 8 bits (R201). -/
theorem signed8_lutDelta (p : Byte) (i : Fin 3) : signed8 (lutDelta p i) = (tmdsCode p (columnBalance i)).2 := by
  obtain ⟨hlo, hhi, -, -⟩ := tmdsCode_delta_range p (columnBalance i)
  exact signed8_enc8 (by omega) (by omega)

/-- FASTENCODE keeps a balance within -10..10 (R210): the column it reads has the balance's sign. -/
theorem fastEncode_balance_range {b : Int} (p : Byte) (h : -10 ≤ b ∧ b ≤ 10) :
    -10 ≤ (fastEncode p b).2 ∧ (fastEncode p b).2 ≤ 10 := by
  obtain ⟨hlo, hhi, hpos, hneg⟩ := tmdsCode_delta_range p (columnBalance (stateIndex b))
  have hnew : (fastEncode p b).2 = b + (tmdsCode p (columnBalance (stateIndex b))).2 := by
    rw [fastEncode, signed8_lutDelta]
  rcases stateIndex_cases b with ⟨hb, hi⟩ | ⟨hb, -⟩ | ⟨hb, hi⟩
  · have : columnBalance (stateIndex b) = -1 := by rw [hi]; rfl
    omega
  · omega
  · have : columnBalance (stateIndex b) = 1 := by rw [hi]; rfl
    omega

/-- A run keeps the balance within -10..10. -/
theorem runBalance_range {b : Int} (ps : List Byte) (h : -10 ≤ b ∧ b ≤ 10) :
    -10 ≤ runBalance b ps ∧ runBalance b ps ≤ 10 := by
  induction ps generalizing b with
  | nil => exact h
  | cons p ps ih => exact ih (fastEncode_balance_range p h)

/-- A balance register after a row holds the run's balance, as a signed integer (R288). -/
theorem toInt_rowBalances (row : List (Tri Byte)) (c : Fin 3) :
    ((rowBalances row).get c).toInt = runBalance 0 (channelOf c row) := by
  obtain ⟨hlo, hhi⟩ := runBalance_range (channelOf c row) (b := 0) (by omega)
  rw [rowBalances, Tri.get_ofFn]
  exact signed8_enc8 (by omega) (by omega)

/-- BAL after ENCODE_ROWS is what its last row leaves (R288). -/
theorem finalBalances_eq_rowBalances {rows : List (List (Tri Byte))} {row : List (Tri Byte)} (bal : Tri (BitVec 8))
    (h : rows[rows.length - 1]? = some row) : finalBalances rows bal = rowBalances row := by
  rw [finalBalances, List.getLast?_eq_getElem?, h]

/-! ## The statements -/

/-- Settles O37: an accepted shape leads to E_RES or to a completed COMPOSE, and the event history tells both from E_SHAPE. -/
theorem composeShapeError : Obligations.ComposeShapeError := by
  intro s
  show execCompose s = .next (raise .shape s) ↔ _
  rw [← shapeBad_eq_true]
  refine ⟨fun h => ?_, execCompose_of_shapeBad⟩
  rcases execCompose_eq_next h with ⟨hbad, -⟩ | ⟨-, hres⟩ | ⟨-, g, rows, -, hdone⟩
  · exact hbad
  · have hlog : ErrCode.shape :: s.errLog = ErrCode.res :: s.errLog := congrArg State.errLog hres
    simp at hlog
  · exact absurd (hdone ▸ composedFrom_composeWith rows g s) (not_composedFrom_raise .shape)

/-- Settles O38: the lookup of a size that is no key finds no geometry; unblanked, COMPOSE makes no lookup. -/
theorem composeGeometryError : Obligations.ComposeGeometryError := by
  intro s hs
  refine ⟨fun hp hb hkey => execCompose_of_geom_none hs hp hb (geom_eq_none hkey), fun hm hw => ?_⟩
  obtain ⟨rows, -, he⟩ := execCompose_unblanked hs hm hw
  exact ⟨_, he, composedFrom_composeWith rows none s, composeWith_none_size rows s⟩

/-- Settles O40: the frame published is the source image's samples, a cell outside it keeps FB's. -/
theorem composePassthroughFrame : Obligations.ComposePassthroughFrame := by
  intro s hs hp hw
  obtain ⟨rows, hr, he⟩ := execCompose_unblanked hs (.inl hp) hw
  have hcomp := composedFrom_composeWith rows none s
  rw [composeWith_passthrough hp] at he hcomp
  obtain ⟨hrows, hcols⟩ := passthroughCells_size hr
  refine ⟨_, he, hcomp, rfl, rfl, rfl, fun y x c hy hx => ?_, fun y x c hout => ?_⟩
  · obtain ⟨row, hrow, -, hlen, hline⟩ := sourceLine_of_srcImageOf hr c hy
    have hsample := List.getElem?_eq_getElem (l := channelOf c row) (i := x) (by omega)
    refine ⟨_, (hline x hx).trans hsample, ?_⟩
    rw [fbCell?_publish hrows hcols, if_pos ⟨hy, hx⟩, passthroughCells_getElem?, hrow, Option.bind_some, hsample]
    rfl
  · rw [fbCell?_publish hrows hcols, if_neg (by omega)]

/-- Settles O43: BAL is the run's balance over row H-1, which never leaves -10..10 and so fits the 8 bits of the register. -/
theorem composeFinalBalances : Obligations.ComposeFinalBalances := by
  intro s t he hc hp c
  obtain ⟨⟨-, -, hH, -, -⟩, g, rows, hr, rfl⟩ := execCompose_composed he hc
  obtain ⟨row, hrow, -, hline⟩ := sourceLine_of_srcImageOf hr c (y := s.imgH.toNat - 1) (by omega)
  rw [← (srcImage_spec hr).1] at hrow
  refine ⟨channelOf c row, hline, ?_⟩
  rw [composeWith_bal hp, finalBalances_eq_rowBalances s.bal hrow, toInt_rowBalances]

end Sys2Proof.Machine
end

section
/-! Proofs of the statements about one FETCH (44_line R321 to R324, R327). -/

namespace Sys2Proof.Machine

variable {s : State} {r : BitVec 12} {cells : SymRow}

/-! ## Which case FETCH takes -/

/-- With no frame held FETCH raises E_EMPTY (R321). -/
theorem execFetch_of_no_frame (h : s.fbH = 0) : execFetch s = .next (raise .empty s) := if_pos h

/-- In one-shot mode FETCH past the last row is end of stream (R324). -/
theorem execFetch_of_endOfStream (h0 : s.fbH ≠ 0) (hc : s.fbH.toNat ≤ s.cur.toNat) (ho : oneShot s = true) :
    execFetch s = .next (endOfStream s) := by
  rw [execFetch, if_neg h0, if_pos hc, if_pos ho]

/-- In loop mode FETCH past the last row is a FETCH of row 0 (R327). -/
theorem execFetch_of_wrap (h0 : s.fbH ≠ 0) (hc : s.fbH.toNat ≤ s.cur.toNat) (ho : oneShot s = false) :
    execFetch s = fetchRow 0 s := by
  rw [execFetch, if_neg h0, if_pos hc, if_neg (Bool.eq_false_iff.1 ho)]

/-- FETCH with the cursor in the frame is a FETCH of the row at CUR (R323). -/
theorem execFetch_of_cur_lt (hc : s.cur.toNat < s.fbH.toNat) : execFetch s = fetchRow s.cur s := by
  have h0 : s.fbH ≠ 0 := fun h => Nat.not_lt_zero _ (h ▸ hc)
  rw [execFetch, if_neg h0, if_neg (Nat.not_le.2 hc)]

/-- A row of a frame held is served (R323). -/
theorem fetchRow_of_holdsFrame (h : HoldsFrame s) (hr : r.toNat < s.fbH.toNat) :
    ∃ cells, fbRow? s r.toNat = some cells ∧ fetchRow r s = .next (serveRow r cells s) := by
  obtain ⟨cells, hcells, -⟩ := fbRow?_of_holdsFrame h hr
  exact ⟨cells, hcells, fetchRow_eq_next.2 ⟨cells, hcells, rfl⟩⟩

/-! ## What a served row leaves -/

/-- A row of the frame held has FB_W positions. -/
theorem fbRow?_length {y : Nat} (h : fbRow? s y = some cells) : cells.length = s.fbW.toNat := by
  obtain ⟨row, -, hlen, rfl⟩ := fbRow?_spec h
  simpa using hlen

/-- The positions of a row of the frame held are FB's cells (R323). -/
theorem fbRow?_cell {y x : Nat} (h : fbRow? s y = some cells) (hx : x < s.fbW.toNat) (c : Fin 3) :
    (cells[x]?).map (·.get c) = fbCell? s y x c := by
  obtain ⟨row, hrow, -, rfl⟩ := fbRow?_spec h
  rw [List.getElem?_take_of_lt hx, fbCell?, hrow]

/-- LB after a row was served: the row's cells, and LB's own beyond them (R323). -/
theorem lbCell?_serveRow (x : Nat) (c : Fin 3) :
    lbCell? (serveRow r cells s) x c = if x < cells.length then (cells[x]?).map (·.get c) else lbCell? s x c := by
  rw [lbCell?, serveRow_lb, getElem?_overwriteAt 0 _ _ (Nat.zero_le _)]
  simp only [Nat.zero_le, true_and, Nat.zero_add, Nat.sub_zero]
  split <;> rfl

/-- What was written from the start of a list is its prefix. -/
theorem take_overwriteAt_zero {α : Type} (new old : List α) : (overwriteAt 0 new old).take new.length = new := by
  simp [overwriteAt]

/-- CUR after row `r` of the frame held: the next row, wrapped to 0 in loop mode (R322). -/
theorem toNat_nextCur (hr : r.toNat < s.fbH.toNat) :
    (nextCur s r).toNat = if oneShot s = false ∧ r.toNat + 1 = s.fbH.toNat then 0 else r.toNat + 1 := by
  have hnext : (field12 (r.toNat + 1)).toNat = r.toNat + 1 := toNat_field12 (by omega)
  have hend : field12 (r.toNat + 1) = s.fbH ↔ r.toNat + 1 = s.fbH.toNat := by rw [← BitVec.toNat_inj, hnext]
  simp only [nextCur, Bool.and_eq_true, Bool.not_eq_true', beq_iff_eq, hend]
  split
  · rfl
  · exact hnext

/-! ## The statements -/

/-- Settles O46: E_EMPTY is `raise`, which idles the engine and keeps a recorded code; end of stream leaves LB and CUR. -/
theorem fetchWithoutRow : Obligations.FetchWithoutRow := by
  intro s
  exact ⟨execFetch_of_no_frame, execFetch_of_endOfStream⟩

/-- Settles O47: either hypothesis makes FETCH a FETCH of row `r` of the frame, which HoldsFrame has written. -/
theorem fetchServesRow : Obligations.FetchServesRow := by
  intro s r hframe hcase
  obtain ⟨hr, hfetch⟩ : r.toNat < s.fbH.toNat ∧ execFetch s = fetchRow r s := by
    rcases hcase with ⟨hcur, rfl⟩ | ⟨h0, hcur, hloop, rfl⟩
    · exact ⟨hcur, execFetch_of_cur_lt hcur⟩
    · exact ⟨toNat_pos_of_ne h0, execFetch_of_wrap h0 hcur hloop⟩
  obtain ⟨cells, hcells, hserve⟩ := fetchRow_of_holdsFrame hframe hr
  have hlen := fbRow?_length hcells
  refine ⟨serveRow r cells s, hfetch.trans hserve, fun x c hx => ?_, fun x c hx => ?_, rfl, rfl, rfl, rfl,
    toNat_nextCur hr, ?_, rfl⟩
  · rw [lbCell?_serveRow, if_pos (by omega), fbRow?_cell hcells hx]
  · rw [lbCell?_serveRow, if_neg (by omega)]
  · rw [serveRow_lines, serveRow_lb, ← hlen, take_overwriteAt_zero]

end Sys2Proof.Machine
end

section
/-! Proofs of the statements about a command that raises (60_exceptions R385) and the CMD write while an error is recorded
(R386). -/

namespace Sys2Proof.Machine

variable {s : State}

/-! ## Precise outcomes -/

/-- An outcome of a command at `s` that is precise (R385): the next state, where there is one, keeps the event history, or is
the raise of one error and nothing else. -/
def PreciseOutcome (s : State) (o : Result) : Prop :=
  ∀ t, o = .next t → t.errLog = s.errLog ∨ ∃ e, t = raise e s

theorem preciseOutcome_raise (e : ErrCode) : PreciseOutcome s (.next (raise e s)) :=
  fun _ h => .inr ⟨e, (Host.Outcome.next.inj h).symm⟩

theorem preciseOutcome_next {u : State} (hlog : u.errLog = s.errLog) : PreciseOutcome s (.next u) :=
  fun _ h => .inl (Host.Outcome.next.inj h ▸ hlog)

/-! ## The commands that can raise -/

/-- ENC raises E_CMD for the reserved channel, or writes RES and BAL (R180). -/
theorem preciseOutcome_execEnc (ch : BitVec 2) (pix : Byte) : PreciseOutcome s (execEnc ch pix s) := by
  unfold execEnc
  split
  · exact preciseOutcome_raise .cmd
  · exact preciseOutcome_next rfl

/-- FENC raises E_CMD for the reserved channel, or writes RES and BAL (R220). -/
theorem preciseOutcome_execFenc (ch : BitVec 2) (pix : Byte) : PreciseOutcome s (execFenc ch pix s) := by
  unfold execFenc
  split
  · exact preciseOutcome_raise .cmd
  · exact preciseOutcome_next rfl

/-- LUTRD raises E_CMD for the reserved state, or writes RES (R225). -/
theorem preciseOutcome_execLutrd (st : BitVec 2) (pix : Byte) : PreciseOutcome s (execLutrd st pix s) := by
  unfold execLutrd
  split
  · exact preciseOutcome_raise .cmd
  · exact preciseOutcome_next rfl

/-- BLKRD raises E_RES without a geometry, E_RANGE outside the total frame, or writes RES (R251). -/
theorem preciseOutcome_execBlkrd (x y : BitVec 12) : PreciseOutcome s (execBlkrd x y s) := by
  unfold execBlkrd
  split
  · exact preciseOutcome_raise .res
  · split
    · exact preciseOutcome_raise .range
    · exact preciseOutcome_next rfl

/-- COMPOSE raises E_SHAPE or E_RES before any write, or completes with the history kept (R280, R291). -/
theorem preciseOutcome_execCompose : PreciseOutcome s (execCompose s) := by
  intro t h
  rcases execCompose_eq_next h with ⟨-, hraise⟩ | ⟨-, hraise⟩ | ⟨-, g, rows, -, rfl⟩
  · exact .inr ⟨.shape, hraise⟩
  · exact .inr ⟨.res, hraise⟩
  · exact .inl (composedFrom_composeWith rows g s).errLog_eq

/-- A row served keeps the history; a row with an unwritten cell has no next state (R323). -/
theorem preciseOutcome_fetchRow (r : BitVec 12) : PreciseOutcome s (fetchRow r s) := by
  intro t h
  obtain ⟨cells, -, rfl⟩ := fetchRow_eq_next.1 h
  exact .inl rfl

/-- FETCH raises E_EMPTY with no frame; end of stream is no error (R321, R324). -/
theorem preciseOutcome_execFetch : PreciseOutcome s (execFetch s) := by
  rcases execFetch_cases s with ⟨-, he⟩ | ⟨-, -, -, he⟩ | ⟨-, -, -, he⟩ | ⟨-, -, he⟩ <;> rw [he]
  · exact preciseOutcome_raise .empty
  · exact preciseOutcome_next rfl
  · exact preciseOutcome_fetchRow 0
  · exact preciseOutcome_fetchRow s.cur

/-- Every command is precise (R385); NOP, BALRST, CLRERR and SRST never raise. -/
theorem preciseOutcome_exec (i : Instr) : PreciseOutcome s (exec i s) := by
  cases i with
  | nop => exact preciseOutcome_next rfl
  | enc ch pix => exact preciseOutcome_execEnc ch pix
  | fenc ch pix => exact preciseOutcome_execFenc ch pix
  | balrst mask => exact preciseOutcome_next rfl
  | lutrd st pix => exact preciseOutcome_execLutrd st pix
  | blkrd x y => exact preciseOutcome_execBlkrd x y
  | compose => exact preciseOutcome_execCompose
  | fetch => exact preciseOutcome_execFetch
  | clrerr => exact preciseOutcome_next (clearError_errLog s)
  | srst => exact preciseOutcome_next (resetRegisters_errLog s)

/-! ## The dropped CMD write -/

/-- While an error is recorded a CMD write of another opcode than CLRERR's and SRST's is dropped (R386). -/
theorem cmdWrite_dropped {w : Word} (he : s.err = true) (h8 : opcOf w ≠ 0x08) (h9 : opcOf w ≠ 0x09) :
    cmdWrite w s = s :=
  if_pos (by simpa [he] using ⟨h8, h9⟩)

/-! ## The statements -/

/-- Settles O52: a changed history leaves only the raise of the command's precise outcome, and `raise` is the state the statement
writes out. -/
theorem failedCommandIsPrecise : Obligations.FailedCommandIsPrecise := by
  intro i s t hexec hlog
  obtain hkept | ⟨e, hraise⟩ := preciseOutcome_exec i t hexec
  · exact absurd hkept hlog
  · exact ⟨e, hraise⟩

/-- Settles O54: address 0 is CMD, and a word whose low byte is another opcode is dropped there. -/
theorem commandsDroppedWhileError : Obligations.CommandsDroppedWhileError := by
  intro s w hbusy herr h8 h9
  rw [← toNat_opcOf] at h8 h9
  have hdrop : cmdWrite w s = s :=
    cmdWrite_dropped herr (fun h => h8 (congrArg BitVec.toNat h)) (fun h => h9 (congrArg BitVec.toNat h))
  calc hostWrite 0 4 w s
    _ = writeIdle (.reg .cmd) w s := hostWrite_idle hbusy (locate_reg rfl)
    _ = .next (cmdWrite w s) := rfl
    _ = .next s := by rw [hdrop]

end Sys2Proof.Machine
end

section
/-! Proofs of the statements about the decoder and the encoder (30_encoding R121 to R131). -/

namespace Sys2Proof.Machine

variable {w : Word} {i j : Instr}

/-! ## The fields of an encoded word -/

section
variable (opc : BitVec 8) (f : BitVec 2) (pix : Byte) (mask : BitVec 3) (x y : BitVec 12)

@[simp] theorem opcOf_encodeN : opcOf (encodeN opc) = opc := by
  apply BitVec.eq_of_toNat_eq; rw [toNat_opcOf, toNat_encodeN]; omega

@[simp] theorem reservedN_encodeN : reservedN (encodeN opc) = 0 := by
  apply not_not.1; rw [← ne_eq, reservedN_ne_zero, toNat_encodeN]; omega

@[simp] theorem opcOf_encodePT : opcOf (encodePT opc f pix) = opc := by
  apply BitVec.eq_of_toNat_eq; rw [toNat_opcOf, toNat_encodePT]; omega

@[simp] theorem chOf_encodePT : chOf (encodePT opc f pix) = f := by
  apply BitVec.eq_of_toNat_eq; rw [chOf, toNat_field, toNat_encodePT]; omega

@[simp] theorem pixOf_encodePT : pixOf (encodePT opc f pix) = pix := by
  apply BitVec.eq_of_toNat_eq; rw [pixOf, toNat_field, toNat_encodePT]; omega

@[simp] theorem reservedPT_encodePT : reservedPT (encodePT opc f pix) = 0 := by
  apply not_not.1; rw [← ne_eq, reservedPT_ne_zero, toNat_encodePT]; omega

@[simp] theorem opcOf_encodeM : opcOf (encodeM opc mask) = opc := by
  apply BitVec.eq_of_toNat_eq; rw [toNat_opcOf, toNat_encodeM]; omega

@[simp] theorem maskOf_encodeM : maskOf (encodeM opc mask) = mask := by
  apply BitVec.eq_of_toNat_eq; rw [maskOf, toNat_field, toNat_encodeM]; omega

@[simp] theorem reservedM_encodeM : reservedM (encodeM opc mask) = 0 := by
  apply not_not.1; rw [← ne_eq, reservedM_ne_zero, toNat_encodeM]; omega

@[simp] theorem opcOf_encodeX : opcOf (encodeX opc x y) = opc := by
  apply BitVec.eq_of_toNat_eq; rw [toNat_opcOf, toNat_encodeX]; omega

@[simp] theorem xOf_encodeX : xOf (encodeX opc x y) = x := by
  apply BitVec.eq_of_toNat_eq; rw [xOf, toNat_field, toNat_encodeX]; omega

@[simp] theorem yOf_encodeX : yOf (encodeX opc x y) = y := by
  apply BitVec.eq_of_toNat_eq; rw [yOf, toNat_field, toNat_encodeX]; omega

end

/-! ## What each format decodes from an encoded word -/

theorem decodeN_encodeN (i : Instr) (opc : BitVec 8) : decodeN i (encodeN opc) = .ok i := by simp [decodeN]

theorem decodeP_encodePT (mk : BitVec 2 → Byte → Instr) (opc : BitVec 8) {f : BitVec 2} (hf : f ≠ 3) (pix : Byte) :
    decodeP mk (encodePT opc f pix) = .ok (mk f pix) := by simpa [decodeP] using hf

theorem decodeT_encodePT (opc : BitVec 8) {f : BitVec 2} (hf : f ≠ 3) (pix : Byte) :
    decodeT (encodePT opc f pix) = .ok (.lutrd f pix) := by simpa [decodeT] using hf

theorem decodeM_encodeM (opc : BitVec 8) (mask : BitVec 3) : decodeM (encodeM opc mask) = .ok (.balrst mask) := by
  simp [decodeM]

/-! ## A word put together again from its fields -/

section
variable {opc : BitVec 8} (hopc : (opcOf w).toNat = opc.toNat)
include hopc

theorem encodeN_of_fields (h : reservedN w = 0) : encodeN opc = w := by
  have hres := (not_congr (reservedN_ne_zero w)).1 (not_not.2 h)
  rw [toNat_opcOf] at hopc
  apply BitVec.eq_of_toNat_eq
  rw [toNat_encodeN]; omega

theorem encodePT_of_fields (h : reservedPT w = 0) : encodePT opc (chOf w) (pixOf w) = w := by
  have hres := (not_congr (reservedPT_ne_zero w)).1 (not_not.2 h)
  rw [toNat_opcOf] at hopc
  apply BitVec.eq_of_toNat_eq
  rw [toNat_encodePT, chOf, pixOf, toNat_field, toNat_field]; omega

theorem encodeM_of_fields (h : reservedM w = 0) : encodeM opc (maskOf w) = w := by
  have hres := (not_congr (reservedM_ne_zero w)).1 (not_not.2 h)
  rw [toNat_opcOf] at hopc
  apply BitVec.eq_of_toNat_eq
  rw [toNat_encodeM, maskOf, toNat_field]; omega

theorem encodeX_of_fields : encodeX opc (xOf w) (yOf w) = w := by
  rw [toNat_opcOf] at hopc
  apply BitVec.eq_of_toNat_eq
  rw [toNat_encodeX, xOf, yOf, toNat_field, toNat_field]; omega

end

/-! ## What each format answers -/

theorem decodeN_eq_ok : decodeN i w = .ok j ↔ reservedN w = 0 ∧ i = j := by
  unfold decodeN; split <;> simp_all

theorem decodeP_eq_ok {mk : BitVec 2 → Byte → Instr} :
    decodeP mk w = .ok j ↔ reservedPT w = 0 ∧ chOf w ≠ 3 ∧ mk (chOf w) (pixOf w) = j := by
  unfold decodeP; split
  · simp_all
  · split <;> simp_all

theorem decodeM_eq_ok : decodeM w = .ok j ↔ reservedM w = 0 ∧ .balrst (maskOf w) = j := by
  unfold decodeM; split <;> simp_all

theorem decodeT_eq_ok : decodeT w = .ok j ↔ reservedPT w = 0 ∧ chOf w ≠ 3 ∧ .lutrd (chOf w) (pixOf w) = j := by
  unfold decodeT; split
  · simp_all
  · split <;> simp_all

/-! ## The decoder -/

/-- BLKRD has no illegal operands (R125). -/
theorem decode_formatX (h : w.toNat % 256 = 5) : decode w = .ok (.blkrd (xOf w) (yOf w)) := by
  simp only [decode, toNat_opcOf, h]

/-- Decoding the word of a legal command, by its format (R129, R131). -/
theorem decode_encode (h : i.wf = true) : decode (encode i) = .ok i := by
  cases i with
  | nop => exact decodeN_encodeN .nop _
  | enc ch pix => simpa [decode, encode] using decodeP_encodePT .enc 1 (bne_iff_ne.1 h) pix
  | fenc ch pix => simpa [decode, encode] using decodeP_encodePT .fenc 2 (bne_iff_ne.1 h) pix
  | balrst mask => simpa [decode, encode] using decodeM_encodeM 3 mask
  | lutrd st pix => simpa [decode, encode] using decodeT_encodePT 4 (bne_iff_ne.1 h) pix
  | blkrd x y => simp [decode, encode]
  | compose => exact decodeN_encodeN .compose _
  | fetch => exact decodeN_encodeN .fetch _
  | clrerr => exact decodeN_encodeN .clrerr _
  | srst => exact decodeN_encodeN .srst _

/-- A decoded command is legal and its word is the one decoded: each format keeps all 32 bits (R129). -/
theorem wf_and_encode_of_decode (h : decode w = .ok i) : i.wf = true ∧ encode i = w := by
  unfold decode at h
  split at h
  case h_1 hopc => obtain ⟨hres, rfl⟩ := decodeN_eq_ok.1 h; exact ⟨rfl, encodeN_of_fields hopc hres⟩
  case h_2 hopc =>
    obtain ⟨hres, hch, rfl⟩ := decodeP_eq_ok.1 h
    exact ⟨bne_iff_ne.2 hch, encodePT_of_fields hopc hres⟩
  case h_3 hopc =>
    obtain ⟨hres, hch, rfl⟩ := decodeP_eq_ok.1 h
    exact ⟨bne_iff_ne.2 hch, encodePT_of_fields hopc hres⟩
  case h_4 hopc => obtain ⟨hres, rfl⟩ := decodeM_eq_ok.1 h; exact ⟨rfl, encodeM_of_fields hopc hres⟩
  case h_5 hopc =>
    obtain ⟨hres, hst, rfl⟩ := decodeT_eq_ok.1 h
    exact ⟨bne_iff_ne.2 hst, encodePT_of_fields hopc hres⟩
  case h_6 hopc => obtain rfl := Except.ok.inj h; exact ⟨rfl, encodeX_of_fields hopc⟩
  case h_7 hopc => obtain ⟨hres, rfl⟩ := decodeN_eq_ok.1 h; exact ⟨rfl, encodeN_of_fields hopc hres⟩
  case h_8 hopc => obtain ⟨hres, rfl⟩ := decodeN_eq_ok.1 h; exact ⟨rfl, encodeN_of_fields hopc hres⟩
  case h_9 hopc => obtain ⟨hres, rfl⟩ := decodeN_eq_ok.1 h; exact ⟨rfl, encodeN_of_fields hopc hres⟩
  case h_10 hopc => obtain ⟨hres, rfl⟩ := decodeN_eq_ok.1 h; exact ⟨rfl, encodeN_of_fields hopc hres⟩
  case h_11 => cases h

/-- A word that is not illegal decodes: its opcode names a format, which takes its operands (R128). -/
theorem decode_ok_of_not_illegalWord (h : ¬ IllegalWord w) : ∃ i, decode w = .ok i := by
  simp only [IllegalWord, not_or, not_and, not_le, ne_eq, not_not] at h
  obtain ⟨hopc, hN, hPT, hM⟩ := h
  have hformat : (w.toNat % 256 = 0 ∨ w.toNat % 256 = 6 ∨ w.toNat % 256 = 7 ∨ w.toNat % 256 = 8 ∨ w.toNat % 256 = 9) ∨
      (w.toNat % 256 = 1 ∨ w.toNat % 256 = 2) ∨ w.toNat % 256 = 3 ∨ w.toNat % 256 = 4 ∨ w.toNat % 256 = 5 := by omega
  have hfieldsPT (hpt : w.toNat % 256 = 1 ∨ w.toNat % 256 = 2 ∨ w.toNat % 256 = 4) :
      reservedPT w = 0 ∧ chOf w ≠ 3 := by
    obtain ⟨hres, hidx⟩ := hPT hpt
    exact ⟨not_not.1 (mt (reservedPT_ne_zero w).1 (Nat.not_le.2 hres)), mt (chOf_eq_three w).1 hidx⟩
  rcases hformat with h | h | h | h | h
  · obtain ⟨i, hi⟩ := decode_formatN h
    have hres : reservedN w = 0 := not_not.1 (mt (reservedN_ne_zero w).1 (not_not.2 (hN h)))
    exact ⟨i, hi.trans (decodeN_eq_ok.2 ⟨hres, rfl⟩)⟩
  · obtain ⟨mk, hmk⟩ := decode_formatP h
    obtain ⟨hres, hch⟩ := hfieldsPT (by omega)
    exact ⟨_, hmk.trans (decodeP_eq_ok.2 ⟨hres, hch, rfl⟩)⟩
  · have hres : reservedM w = 0 := not_not.1 (mt (reservedM_ne_zero w).1 (Nat.not_le.2 (hM h)))
    exact ⟨_, (decode_formatM h).trans (decodeM_eq_ok.2 ⟨hres, rfl⟩)⟩
  · obtain ⟨hres, hst⟩ := hfieldsPT (by omega)
    exact ⟨_, (decode_formatT h).trans (decodeT_eq_ok.2 ⟨hres, hst, rfl⟩)⟩
  · exact ⟨_, decode_formatX h⟩

/-- The words that do not decode are the illegal ones (R128, R129). -/
theorem decode_eq_error_iff (w : Word) : (∃ e, decode w = .error e) ↔ IllegalWord w := by
  refine ⟨fun ⟨e, he⟩ => ?_, decode_error_of_illegalWord⟩
  by_contra hlegal
  obtain ⟨i, hi⟩ := decode_ok_of_not_illegalWord hlegal
  cases he.symm.trans hi

/-! ## The statements -/

/-- Settles O13: each format's fields are read back from the joined word. -/
theorem decodeEncodeRoundTrip : Obligations.DecodeEncodeRoundTrip := fun _ h => decode_encode h

/-- Settles O14: the reserved bits are 0 in a word that decodes, so its fields make the whole word. -/
theorem decodedWordIsTheEncoding : Obligations.DecodedWordIsTheEncoding := fun _ _ h => wf_and_encode_of_decode h

/-- Settles O15: a legal word decodes, so one that does not is illegal; an illegal one is refused by its format. -/
theorem illegalWordsExactly : Obligations.IllegalWordsExactly := decode_eq_error_iff

/-- Settles O17: each word is the encoding of its command, written out, and so decodes to it. -/
theorem specWordsDecode : Obligations.SpecWordsDecode :=
  ⟨decode_encode (i := .nop) rfl, decode_encode (i := .enc 1 0xFF) rfl, decode_encode (i := .fenc 2 0) rfl,
    decode_encode (i := .balrst 7) rfl, decode_encode (i := .lutrd 0 0xFF) rfl, decode_encode (i := .blkrd 100 100) rfl,
    decode_encode (i := .compose) rfl, decode_encode (i := .fetch) rfl, decode_encode (i := .clrerr) rfl,
    decode_encode (i := .srst) rfl⟩

end Sys2Proof.Machine
end

section
/-! Proofs of the statements about the coder and the lookup table (40_coder R162, R169 to R175; 41_lut R203, R204). -/

namespace Sys2Proof.Machine

variable {p : Byte} {b : Int}

/-! ## Bits and numbers (R160, R161) -/

/-- Bit i of the number a bit sequence makes. -/
theorem testBit_fromBits (l : List Bool) (i : Nat) : (fromBits l).testBit i = l.getD i false := by
  induction l generalizing i with
  | nil => simp [fromBits]
  | cons d l ih =>
    cases i with
    | zero => cases d <;> simp [fromBits, Nat.testBit_zero]
    | succ i =>
      have hhalf : fromBits (d :: l) / 2 = fromBits l := by
        have : d.toNat ≤ 1 := Bool.toNat_le d
        simp only [fromBits]; omega
      rw [Nat.testBit_succ, hhalf, ih, List.getD_cons_succ]

/-- The low n bits of a number make the number modulo 2^n. -/
theorem fromBits_map_testBit (n x : Nat) : fromBits ((List.range n).map x.testBit) = x % 2 ^ n := by
  induction n generalizing x with
  | zero => simp [fromBits, Nat.mod_one]
  | succ n ih =>
    have hshift : x.testBit ∘ Nat.succ = (x / 2).testBit := funext fun i => Nat.testBit_succ x i
    rw [List.range_succ_eq_map, List.map_cons, List.map_map, hshift, fromBits, ih, Nat.testBit_zero, pow_succ',
      Nat.mod_mul]
    congr 1
    rcases Nat.mod_two_eq_zero_or_one x with h | h <;> simp [h]

/-- A value is recovered from its bits (R162). -/
theorem fromBits_toBits {n : Nat} (v : BitVec n) : fromBits (toBits v) = v.toNat :=
  (fromBits_map_testBit n v.toNat).trans (Nat.mod_eq_of_lt v.isLt)

/-- The low k bits of a word made from a bit sequence are the sequence's first k. -/
theorem toBits_extract_fromBits {n k : Nat} {l : List Bool} (hl : k ≤ l.length) (hn : k ≤ n) :
    toBits ((BitVec.ofNat n (fromBits l)).extractLsb' 0 k) = l.take k := by
  apply List.ext_getElem
  · simp [hl]
  · intro i h₁ h₂
    have hi : i < k := by simpa using h₁
    have hil : i < l.length := by omega
    have hin : i < n := by omega
    simp only [toBits, List.getElem_map, List.getElem_range, List.getElem_take, BitVec.getLsbD_extractLsb',
      BitVec.getLsbD_ofNat, testBit_fromBits, Nat.zero_add, hi, hin, decide_true, Bool.true_and]
    exact List.getD_eq_getElem l false hil

/-! ## The ten bits of a code word (R167) -/

/-- The code word of a pixel whose 10th bit is `c`: q inverted or not, q[8], and `c` (R166, R167). -/
def codeWord (p : Byte) (c : Bool) : Sym :=
  BitVec.ofNat 16 (fromBits ((if c then notBits (qData p) else qData p) ++ [q8 p, c]))

/-- The 10th bit that step 4 chooses. -/
def tenthBit (p : Byte) (b : Int) : Bool := (dcBalance (qData p) (q8 p) b).b9

/-- The 10th bit says whether the data bits are inverted (R166). -/
theorem qo_dcBalance (q : List Bool) (b8 : Bool) (b : Int) :
    (dcBalance q b8 b).qo = if (dcBalance q b8 b).b9 then notBits q else q := by
  simp only [dcBalance]
  split
  · cases b8 <;> rfl
  · split <;> rfl

/-- The coder emits one of the pixel's two words (R167). -/
theorem tmdsCode_word (p : Byte) (b : Int) : (tmdsCode p b).1 = codeWord p (tenthBit p b) := by
  rw [codeWord, tenthBit, ← qo_dcBalance]
  rfl

@[simp] theorem length_invertIf (c : Bool) (q : List Bool) : (if c then notBits q else q).length = q.length := by
  cases c <;> simp

theorem toBits_codeWord (p : Byte) (c : Bool) :
    toBits ((codeWord p c).extractLsb' 0 10) = (if c then notBits (qData p) else qData p) ++ [q8 p, c] := by
  rw [codeWord, toBits_extract_fromBits (by simp) (by omega), List.take_of_length_le (by simp)]

theorem toBits_codeWord_data (p : Byte) (c : Bool) :
    toBits ((codeWord p c).extractLsb' 0 8) = if c then notBits (qData p) else qData p := by
  rw [codeWord, toBits_extract_fromBits (by simp) (by omega), List.take_left' (by simp)]

/-! ## The delta (R170, R171) -/

/-- The delta is twice the ones of the ten bits, less ten (R171): each case of step 4 counts what it emits. -/
theorem delta_dcBalance {q : List Bool} (hq : q.length = 8) (b8 : Bool) (b : Int) :
    (dcBalance q b8 b).delta =
      2 * popcount ((dcBalance q b8 b).qo ++ [b8, (dcBalance q b8 b).b9]) - 10 := by
  have happend (l : List Bool) (c : Bool) : popcount (l ++ [b8, c]) = popcount l + b8.toNat + c.toNat := by
    cases b8 <;> cases c <;> simp [popcount, List.count_append]
  have hinv := popcount_notBits q
  rw [hq] at hinv
  simp only [happend, dcBalance]
  split
  · cases b8 <;> simp <;> omega
  · split <;> simp <;> omega

/-- The delta is the disparity of the code word (R171). -/
theorem tmdsCode_delta_eq_disparity (p : Byte) (b : Int) :
    (tmdsCode p b).2 = (onesOf (tmdsCode p b).1 : Int) - (zerosOf (tmdsCode p b).1 : Int) := by
  have hle : onesOf (tmdsCode p b).1 ≤ 10 :=
    (popcount_le _).trans_eq (length_toBits _)
  have hdelta : (tmdsCode p b).2 = 2 * (onesOf (tmdsCode p b).1 : Int) - 10 := by
    rw [onesOf, tmdsCode_word, toBits_codeWord, tenthBit, ← qo_dcBalance]
    exact delta_dcBalance (length_qData p) (q8 p) b
  rw [zerosOf]; omega

/-- The delta is even (R170). -/
theorem tmdsCode_delta_even (p : Byte) (b : Int) : (tmdsCode p b).2 % 2 = 0 := by
  have h := delta_dcBalance (length_qData p) (q8 p) b
  rw [show (tmdsCode p b).2 = (dcBalance (qData p) (q8 p) b).delta from rfl]
  omega

/-- At balance 0 the delta is the disparity of q[0..7] alone, up to sign (R166). -/
theorem tmdsCode_delta_zero (p : Byte) : -8 ≤ (tmdsCode p 0).2 ∧ (tmdsCode p 0).2 ≤ 8 := by
  have hones : popcount (qData p) ≤ 8 := length_qData p ▸ popcount_le (qData p)
  simp only [tmdsCode, dcBalance, true_or, if_true]
  split <;> (dsimp only; omega)

/-! ## The sign of the balance (R169, R203) -/

/-- The coder reads the balance through its sign (R169). -/
theorem tmdsCode_sign (p : Byte) (b : Int) : tmdsCode p b = tmdsCode p b.sign := by
  have h : dcBalance (qData p) (q8 p) b = dcBalance (qData p) (q8 p) b.sign :=
    dcBalance_congr _ _ Int.sign_eq_zero_iff_zero.symm Int.sign_pos_iff.symm Int.sign_neg_iff.symm
  simp only [tmdsCode, h]

/-- The column of a balance is built at its sign (R200, R201). -/
theorem columnBalance_stateIndex (b : Int) : columnBalance (stateIndex b) = b.sign := by
  rcases stateIndex_cases b with ⟨hb, hi⟩ | ⟨rfl, -⟩ | ⟨hb, hi⟩
  · rw [hi, Int.sign_eq_neg_one_of_neg hb]; rfl
  · rfl
  · rw [hi, Int.sign_eq_one_of_pos hb]; rfl

/-- The table's code is the direct coder's (R203). -/
theorem lutCode_stateIndex (p : Byte) (b : Int) : lutCode p (stateIndex b) = (tmdsCode p b).1 := by
  rw [lutCode, columnBalance_stateIndex, ← tmdsCode_sign]

/-- The table's delta is the direct coder's (R203). -/
theorem signed8_lutDelta_stateIndex (p : Byte) (b : Int) : signed8 (lutDelta p (stateIndex b)) = (tmdsCode p b).2 := by
  rw [signed8_lutDelta, columnBalance_stateIndex, ← tmdsCode_sign]

/-- FASTENCODE is the direct coder with the balance added (R210, R203). -/
theorem fastEncode_eq_tmdsCode (p : Byte) (b : Int) : fastEncode p b = ((tmdsCode p b).1, b + (tmdsCode p b).2) := by
  simp only [fastEncode, lutCode_stateIndex, signed8_lutDelta_stateIndex]

/-! ## Runs (R171, R172) -/

/-- A run adds up the disparities of the words it emits (R171). -/
theorem runBalance_eq_sum (b : Int) (ps : List Byte) : runBalance b ps =
    b + ((runCodes b ps).map fun code => (onesOf code : Int) - (zerosOf code : Int)).sum := by
  induction ps generalizing b with
  | nil => simp [runBalance, runCodes]
  | cons p ps ih =>
    rw [runBalance, ih, runCodes, List.map_cons, List.sum_cons, fastEncode_eq_tmdsCode,
      ← tmdsCode_delta_eq_disparity]
    dsimp only
    omega

/-- An even balance within -8..8 stays one (R172): a delta never leads further from 0. -/
theorem fastEncode_balance_even {b : Int} (p : Byte) (h : -8 ≤ b ∧ b ≤ 8 ∧ b % 2 = 0) :
    -8 ≤ (fastEncode p b).2 ∧ (fastEncode p b).2 ≤ 8 ∧ (fastEncode p b).2 % 2 = 0 := by
  obtain ⟨hlo, hhi, hpos, hneg⟩ := tmdsCode_delta_range p b
  have hzero := tmdsCode_delta_zero p
  have heven := tmdsCode_delta_even p b
  rw [fastEncode_eq_tmdsCode]
  dsimp only
  rcases lt_trichotomy b 0 with hb | rfl | hb <;> omega

theorem runBalance_even {b : Int} (ps : List Byte) (h : -8 ≤ b ∧ b ≤ 8 ∧ b % 2 = 0) :
    -8 ≤ runBalance b ps ∧ runBalance b ps ≤ 8 ∧ runBalance b ps % 2 = 0 := by
  induction ps generalizing b with
  | nil => exact h
  | cons p ps ih => exact ih (fastEncode_balance_even p h)

/-! ## Transitions (R173) -/

/-- A chain changes at each bit set in XOR mode, at each bit clear in XNOR mode (R164). -/
theorem transitions_chain (x c : Bool) (l : List Bool) : transitions (c :: chain x c l) = l.count (!x) := by
  induction l generalizing c with
  | nil => rfl
  | cons d l ih =>
    simp only [chain, transitions, ih, List.count_cons]
    cases x <;> cases c <;> cases d <;> simp [Nat.add_comm]

/-- Inversion keeps the transitions. -/
@[simp] theorem transitions_notBits (l : List Bool) : transitions (notBits l) = transitions l := by
  induction l with
  | nil => rfl
  | cons a l ih =>
    cases l with
    | nil => rfl
    | cons c l =>
      have hhead : ((!a) = !c) ↔ a = c := by cases a <;> cases c <;> simp
      simp only [notBits, List.map_cons, transitions, hhead] at ih ⊢
      rw [ih]

/-- One more bit adds at most one transition. -/
theorem transitions_concat_le (l : List Bool) (a : Bool) : transitions (l ++ [a]) ≤ transitions l + 1 := by
  induction l with
  | nil => simp [transitions]
  | cons c l ih =>
    cases l with
    | nil => simp only [List.cons_append, List.nil_append, transitions]; split <;> omega
    | cons d l => simp only [List.cons_append, transitions] at ih ⊢; omega

/-- XNOR mode is chosen for more than four ones, or for four of which q[0] is none (R164). -/
theorem xnorMode_eq_true_iff (p : Byte) : xnorMode p = true ↔
    4 < popcount (toBits p) ∨ popcount (toBits p) = 4 ∧ p.getLsbD 0 = false := by
  simp [xnorMode]

/-- q is q[0] and the chain over the other bits of the pixel (R164). -/
theorem qData_eq (p : Byte) : qData p = p.getLsbD 0 :: chain (xnorMode p) (p.getLsbD 0) (toBits p).tail := rfl

/-- q[0..7] has at most three transitions (R173): the mode is chosen so. -/
theorem transitions_qData (p : Byte) : transitions (qData p) ≤ 3 := by
  obtain ⟨ds, hbits⟩ : ∃ ds, toBits p = p.getLsbD 0 :: ds := ⟨_, rfl⟩
  have hlen : ds.length = 7 := by simpa [hbits] using length_toBits p
  have hcompl := List.count_true_add_count_false ds
  have hones : popcount (toBits p) = ds.count true + (p.getLsbD 0).toNat := by
    rw [hbits, popcount, List.count_cons]
    cases p.getLsbD 0 <;> rfl
  have hmode := xnorMode_eq_true_iff p
  rw [hones] at hmode
  rw [qData_eq, hbits, List.tail_cons, transitions_chain]
  cases hx : xnorMode p with
  | true =>
    obtain h | ⟨h, h0⟩ := hmode.1 hx
    · have : (p.getLsbD 0).toNat ≤ 1 := Bool.toNat_le _
      show ds.count false ≤ 3
      omega
    · rw [h0, Bool.toNat_false] at h
      show ds.count false ≤ 3
      omega
  | false =>
    have h := mt hmode.2 (by simp [hx])
    show ds.count true ≤ 3
    cases h0 : p.getLsbD 0 <;> simp only [h0, Bool.toNat_true, Bool.toNat_false] at h <;> simp at h <;> omega

/-- The data bits have at most three transitions (R173). -/
theorem transitions_codeWord_data (p : Byte) (c : Bool) : transitions (toBits ((codeWord p c).extractLsb' 0 8)) ≤ 3 := by
  rw [toBits_codeWord_data]
  cases c
  · exact transitions_qData p
  · exact (transitions_notBits _).trans_le (transitions_qData p)

/-- The ten bits have at most five (R173). -/
theorem transitions_codeWord (p : Byte) (c : Bool) : transitions (toBits ((codeWord p c).extractLsb' 0 10)) ≤ 5 := by
  have hdata := transitions_codeWord_data p c
  rw [toBits_codeWord_data] at hdata
  rw [toBits_codeWord]
  generalize (if c then notBits (qData p) else qData p) = q at hdata ⊢
  have h8 := transitions_concat_le q (q8 p)
  have h9 := transitions_concat_le (q ++ [q8 p]) c
  rw [List.append_assoc] at h9
  exact h9.trans (by omega)

/-- The transitions of the control codes (R173). -/
theorem transitions_controlCodes :
    transitions (toBits (codeCorner.extractLsb' 0 10)) = 7 ∧ transitions (toBits (codeTopBottom.extractLsb' 0 10)) = 7 ∧
    transitions (toBits (codeLeftRight.extractLsb' 0 10)) = 8 ∧ transitions (toBits (codeCenter.extractLsb' 0 10)) = 8 :=
  ⟨by decide, by decide, by decide, by decide⟩

/-! ## The pixel of a code word (R175) -/

/-- Each link of a chain is the one before it and the next bit, joined by XOR or XNOR (R164). -/
theorem chain_getElem? (x c : Bool) (l : List Bool) (k : Nat) :
    (c :: chain x c l)[k + 1]? =
      (l[k]?).map fun d => (((c :: chain x c l).getD k false) ^^ d) ^^ x := by
  induction l generalizing c k with
  | nil => simp [chain]
  | cons d l ih =>
    cases k with
    | zero => cases x <;> simp [chain]
    | succ k => simpa [chain] using ih (if x then !(c ^^ d) else c ^^ d) k

/-- Bit k + 1 of q, from bit k and the pixel (R164). -/
theorem qData_succ (p : Byte) {k : Nat} (hk : k < 7) :
    (qData p).getD (k + 1) false = (((qData p).getD k false ^^ p.getLsbD (k + 1)) ^^ xnorMode p) := by
  have htail : (toBits p).tail[k]? = some (p.getLsbD (k + 1)) := by
    rw [List.getElem?_tail, toBits, List.getElem?_map, List.getElem?_range (by omega)]; rfl
  rw [List.getD_eq_getElem?_getD, qData_eq, chain_getElem?, htail]
  rfl

/-- Bit k of a code word, from its ten bits (R167). -/
theorem getLsbD_codeWord (p : Byte) (c : Bool) {k : Nat} (hk : k < 16) :
    (codeWord p c).getLsbD k = ((if c then notBits (qData p) else qData p) ++ [q8 p, c]).getD k false := by
  rw [codeWord, BitVec.getLsbD_ofNat, testBit_fromBits]
  simp [hk]

theorem getLsbD_eight_codeWord (p : Byte) (c : Bool) : (codeWord p c).getLsbD 8 = q8 p := by
  rw [getLsbD_codeWord p c (by omega), List.getD_append_right _ _ _ _ (by simp)]
  simp

theorem getLsbD_nine_codeWord (p : Byte) (c : Bool) : (codeWord p c).getLsbD 9 = c := by
  rw [getLsbD_codeWord p c (by omega), List.getD_append_right _ _ _ _ (by simp)]
  simp

/-- A code word's data bits with the inversion of the 10th bit undone (R175). -/
theorem getLsbD_uninverted (code : Sym) {k : Nat} (hk : k < 8) :
    (if code.getLsbD 9 then ~~~code.extractLsb' 0 8 else code.extractLsb' 0 8).getLsbD k =
      (code.getLsbD 9 ^^ code.getLsbD k) := by
  cases code.getLsbD 9 <;> simp [hk]

/-- They are q (R166, R175). -/
theorem getLsbD_codeWord_uninverted (p : Byte) (c : Bool) {k : Nat} (hk : k < 8) :
    ((codeWord p c).getLsbD 9 ^^ (codeWord p c).getLsbD k) = (qData p).getD k false := by
  have hq : k < (qData p).length := by simpa using hk
  rw [getLsbD_nine_codeWord, getLsbD_codeWord p c (by omega), List.getD_append _ _ _ k (by simpa using hk),
    List.getD_eq_getElem _ _ hq]
  cases c
  · rw [if_neg Bool.false_ne_true, List.getD_eq_getElem _ _ hq, Bool.false_xor]
  · rw [if_pos rfl, List.getD_eq_getElem _ _ (by simpa using hq)]
    simp [notBits]

/-- The pixel is recovered from its code word: XOR with the link before it undoes each link of the chain (R164, R175). -/
theorem pixelOfCode_codeWord (p : Byte) (c : Bool) : pixelOfCode (codeWord p c) = p := by
  simp only [pixelOfCode, getLsbD_eight_codeWord, q8]
  rw [List.map_congr_left (g := p.getLsbD)]
  · exact (congrArg (BitVec.ofNat 8) (fromBits_toBits p)).trans (by simp)
  intro k hk
  have hk8 : k < 8 := List.mem_range.1 hk
  rw [getLsbD_uninverted _ hk8, getLsbD_uninverted _ (by omega), getLsbD_uninverted _ (by omega),
    getLsbD_codeWord_uninverted p c hk8, getLsbD_codeWord_uninverted p c (by omega),
    getLsbD_codeWord_uninverted p c (by omega)]
  cases k with
  | zero => simp [qData_eq]
  | succ k =>
    rw [if_neg (Nat.succ_ne_zero k), Nat.add_sub_cancel, qData_succ p (by omega)]
    cases (qData p).getD k false <;> cases p.getLsbD (k + 1) <;> cases xnorMode p <;> rfl

/-! ## The code space (R174) -/

/-- With four ones in q the 10th bit is fixed (R166). -/
theorem tenthBit_of_four (h : popcount (qData p) = 4) (b : Int) : tenthBit p b = xnorMode p := by
  have h' : (popcount (qData p) : Int) = 4 := by omega
  simp only [tenthBit, dcBalance, h', or_true, if_true, q8]
  cases xnorMode p <;> rfl

/-- With another number of ones both values of the 10th bit occur, at a balance of 1 and of -1 (R166). -/
theorem exists_tenthBit_of_ne_four (h : popcount (qData p) ≠ 4) (c : Bool) : ∃ b, tenthBit p b = c := by
  have h' : (popcount (qData p) : Int) ≠ 4 := by omega
  rcases Nat.lt_or_gt_of_ne h with hlt | hgt <;> cases c
  · exact ⟨1, by simp [tenthBit, dcBalance, h', hlt.le.not_gt]⟩
  · exact ⟨-1, by simp [tenthBit, dcBalance, h', hlt]⟩
  · exact ⟨-1, by simp [tenthBit, dcBalance, h', hgt.le.not_gt]⟩
  · exact ⟨1, by simp [tenthBit, dcBalance, h', hgt]⟩

/-- The code words of a pixel, one or two. -/
def codesOf (p : Byte) : List Sym :=
  if popcount (qData p) = 4 then [codeWord p (xnorMode p)] else [codeWord p false, codeWord p true]

theorem mem_codesOf {v : Sym} : v ∈ codesOf p ↔ ∃ b, (tmdsCode p b).1 = v := by
  simp only [codesOf, tmdsCode_word]
  split
  · next h => simp [tenthBit_of_four h, eq_comm]
  · next h =>
    constructor
    · intro hv
      obtain ⟨c, rfl⟩ : ∃ c, codeWord p c = v := by
        rcases List.mem_pair.1 hv with rfl | rfl
        · exact ⟨false, rfl⟩
        · exact ⟨true, rfl⟩
      obtain ⟨b, rfl⟩ := exists_tenthBit_of_ne_four h c
      exact ⟨b, rfl⟩
    · rintro ⟨b, rfl⟩
      cases tenthBit p b <;> simp

theorem nodup_codesOf (p : Byte) : (codesOf p).Nodup := by
  have hne : codeWord p false ≠ codeWord p true := fun h => by
    have := congrArg (·.getLsbD 9) h
    simp only [getLsbD_nine_codeWord] at this
    cases this
  unfold codesOf
  split <;> simp [hne]

/-- A code word stands for its pixel (R175). -/
theorem pixelOfCode_of_mem_codesOf {v : Sym} (h : v ∈ codesOf p) : pixelOfCode v = p := by
  obtain ⟨b, rfl⟩ := mem_codesOf.1 h
  rw [tmdsCode_word, pixelOfCode_codeWord]

/-- All pixels. -/
def pixels : List Byte := (List.range 256).map (BitVec.ofNat 8)

theorem mem_pixels (p : Byte) : p ∈ pixels :=
  List.mem_map.2 ⟨p.toNat, List.mem_range.2 p.isLt, BitVec.ofNat_toNat ..⟩

theorem nodup_pixels : pixels.Nodup := by
  refine List.nodup_range.map_on fun i hi j hj hij => ?_
  rw [List.mem_range] at hi hj
  have h := congrArg BitVec.toNat hij
  simp only [BitVec.toNat_ofNat] at h
  omega

/-- All code words, pixel by pixel. -/
def codeWords : List Sym := pixels.flatMap codesOf

theorem mem_codeWords (v : Sym) : v ∈ codeWords ↔ ∃ (p : Byte) (b : Int), (tmdsCode p b).1 = v := by
  simp [codeWords, List.mem_flatMap, mem_codesOf, mem_pixels]

theorem nodup_codeWords : codeWords.Nodup := by
  refine List.nodup_flatMap.2 ⟨fun p _ => nodup_codesOf p, nodup_pixels.imp fun {p r} hpr => ?_⟩
  intro v hp hr
  exact hpr ((pixelOfCode_of_mem_codesOf hp).symm.trans (pixelOfCode_of_mem_codesOf hr))

/-- 52 of the 256 pixels have four ones in q, and so one code word instead of two. -/
theorem length_codeWords : codeWords.length = 460 := by
  rw [codeWords, List.length_flatMap]
  decide +kernel

/-- A code word is none of the control codes, which have more transitions (R173, R174). -/
theorem codeWord_not_control (p : Byte) (c : Bool) :
    codeWord p c ∉ [codeCorner, codeTopBottom, codeLeftRight, codeCenter] := by
  intro h
  have hle := transitions_codeWord p c
  obtain ⟨h₁, h₂, h₃, h₄⟩ := transitions_controlCodes
  simp only [List.mem_cons, List.not_mem_nil, or_false] at h
  rcases h with h | h | h | h <;> (rw [h] at hle; omega)

/-- The fill is the code of 0xFF at a negative balance, and of nothing else (R174). -/
theorem tmdsCode_eq_fill (p : Byte) (b : Int) : (tmdsCode p b).1 = codeFill ↔ p = 0xFF ∧ b < 0 := by
  have hpixel : pixelOfCode codeFill = 0xFF := by decide
  have hsign : (tmdsCode 0xFF (-1)).1 = codeFill ∧ (tmdsCode 0xFF 0).1 ≠ codeFill ∧ (tmdsCode 0xFF 1).1 ≠ codeFill := by
    decide
  have hff : (tmdsCode 0xFF b).1 = codeFill ↔ b < 0 := by
    rw [tmdsCode_sign]
    rcases lt_trichotomy b 0 with h | rfl | h
    · rw [Int.sign_eq_neg_one_of_neg h]; exact iff_of_true hsign.1 h
    · exact iff_of_false hsign.2.1 (lt_irrefl 0)
    · rw [Int.sign_eq_one_of_pos h]; exact iff_of_false hsign.2.2 h.le.not_gt
  refine ⟨fun h => ?_, fun ⟨hp, hb⟩ => hp ▸ hff.2 hb⟩
  have hp : p = 0xFF := by rw [← hpixel, ← h, tmdsCode_word, pixelOfCode_codeWord]
  exact ⟨hp, hff.1 (hp ▸ h)⟩

/-- Bits 15:10 of a well-formed symbol (R91). -/
theorem SymWf.high_bits {v : Sym} (h : SymWf v) : v.extractLsb' 10 6 = 0 := by
  apply BitVec.eq_of_toNat_eq
  rw [BitVec.extractLsb'_toNat, Nat.shiftRight_eq_div_pow, Nat.div_eq_of_lt h]
  rfl

/-! ## The statements -/

/-- Settles O18: bit by bit, a value's bits make it again. -/
theorem bitsRoundTrip : Obligations.BitsRoundTrip := fun v => fromBits_toBits v

/-- Settles O19: the two comparisons of step 4 read the balance's sign. -/
theorem coderReadsOnlyTheSign : Obligations.CoderReadsOnlyTheSign := tmdsCode_sign

/-- Settles O20: the delta's range, its parity, and its sign against the balance's; the counters follow by arithmetic. -/
theorem coderDeltaRange : Obligations.CoderDeltaRange := by
  intro p b d
  obtain ⟨hlo, hhi, hpos, hneg⟩ := tmdsCode_delta_range p b
  refine ⟨fun h => ?_, fun h => ⟨hlo, hpos h⟩, fun h => ⟨hneg h, hhi⟩, tmdsCode_delta_even p b, fun w hw h₁ h₂ => ?_, ?_, ?_⟩
  · have := tmdsCode_delta_zero p
    rwa [← h] at this
  · have hpow : (2 : Int) ^ 4 ≤ 2 ^ (w - 1) := pow_le_pow_right₀ (by omega) (by omega)
    omega
  · omega
  · omega

/-- Settles O21: each case of step 4 counts the ones it emits; a run adds the deltas. -/
theorem coderDeltaIsDisparity : Obligations.CoderDeltaIsDisparity :=
  ⟨tmdsCode_delta_eq_disparity, fun ps => (runBalance_eq_sum 0 ps).trans (Int.zero_add _)⟩

/-- Settles O22: an even balance within -8..8 stays one; each member is the delta of one pixel at balance 0. -/
theorem balancesReachableFromZero : Obligations.BalancesReachableFromZero := by
  constructor
  · intro ps
    obtain ⟨hlo, hhi, heven⟩ := runBalance_even (b := 0) ps (by omega)
    simp only [List.mem_cons, List.not_mem_nil, or_false]
    omega
  · have hreach : ∀ vp ∈ [((-8 : Int), (0 : Byte)), (-6, 3), (-4, 5), (-2, 9), (0, 16), (2, 8), (4, 4), (6, 2), (8, 1)],
        runBalance 0 [vp.2] = vp.1 := by decide
    intro v hv
    obtain ⟨vp, hvp, rfl⟩ := List.mem_map.1 (show v ∈ List.map Prod.fst [((-8 : Int), (0 : Byte)), (-6, 3), (-4, 5),
      (-2, 9), (0, 16), (2, 8), (4, 4), (6, 2), (8, 1)] from hv)
    exact ⟨_, hreach vp hvp⟩

/-- Settles O23: the mode of step 1 leaves at most three transitions in q, inversion keeps them, and two more bits add at most
two. -/
theorem codeTransitionBounds : Obligations.CodeTransitionBounds :=
  ⟨fun p b => by
    rw [tmdsCode_word]
    exact ⟨transitions_codeWord_data p _, transitions_codeWord p _, (transitions_codeWord_data p _).trans⟩,
    transitions_controlCodes⟩

/-- Settles O24: a code word determines its pixel, so the code space is the disjoint union of each pixel's one or two words. -/
theorem codeSpace : Obligations.CodeSpace :=
  ⟨⟨codeWords, nodup_codeWords, length_codeWords, mem_codeWords⟩,
    fun p b => ⟨(tmdsCode_wf p b).high_bits, tmdsCode_word p b ▸ codeWord_not_control p _, tmdsCode_eq_fill p b⟩⟩

/-- Settles O25: bits 9 and 8 of the code say what was inverted and how the chain was joined. -/
theorem codeDeterminesPixel : Obligations.CodeDeterminesPixel :=
  fun p b => tmdsCode_word p b ▸ pixelOfCode_codeWord p _

/-- Settles O28: the column of a balance's sign is built at that sign, which is all the coder reads. -/
theorem tableEqualsCoder : Obligations.TableEqualsCoder :=
  fun p b => Prod.ext (lutCode_stateIndex p b) (signed8_lutDelta_stateIndex p b)

/-- Settles O29: the table's deltas are the coder's at -1, 0 and 1, and fit their 8 bits. -/
theorem tableEntryRanges : Obligations.TableEntryRanges := by
  intro p
  have hentry (st : Fin 3) : (lutDelta p st).toInt = (tmdsCode p (columnBalance st)).2 := signed8_lutDelta p st
  obtain ⟨-, hhi, -, hneg⟩ := tmdsCode_delta_range p (columnBalance 0)
  obtain ⟨hlo, -, hpos, -⟩ := tmdsCode_delta_range p (columnBalance 2)
  refine ⟨?_, ?_, ?_, fun st => ⟨?_, hentry st, Nat.le_of_lt_succ (lutCode_wf p st), (lutCode_wf p st).high_bits⟩⟩
  · rw [hentry]; exact ⟨hneg (by decide), hhi⟩
  · rw [hentry]; exact tmdsCode_delta_zero p
  · rw [hentry]; exact ⟨hlo, hpos (by decide)⟩
  · rw [hentry]; exact tmdsCode_delta_even p _

end Sys2Proof.Machine
end

section
/-! Proofs of the statements about ENC, FENC and LUTRD (40_coder R180; 41_lut R220, R221, R225). -/

namespace Sys2Proof.Machine

variable {s : State}

/-! ## The registers a pixel command writes -/

/-- A balance in 8 bits never wraps: the delta does not lead further from 0, and is small at 0 (R170). -/
theorem tmdsCode_balance_fits {b : Int} (p : Byte) (h : -128 ≤ b ∧ b ≤ 127) :
    -128 ≤ b + (tmdsCode p b).2 ∧ b + (tmdsCode p b).2 ≤ 127 := by
  obtain ⟨hlo, hhi, hpos, hneg⟩ := tmdsCode_delta_range p b
  rcases lt_trichotomy b 0 with hb | rfl | hb <;> omega

/-- RES_DELTA reads as the coder's delta (R39). -/
theorem toInt_sext32_delta (p : Byte) (b : Int) : (sext32 (tmdsCode p b).2).toInt = (tmdsCode p b).2 := by
  obtain ⟨hlo, hhi, -, -⟩ := tmdsCode_delta_range p b
  exact toInt_sext32 (by omega) (by omega)

/-- The state ENC leaves on channel `c` (R180). -/
def encoded (c : Fin 3) (pix : Byte) (s : State) : State :=
  let r := tmdsCode pix (signed8 (s.bal.get c))
  setBal c (enc8 (signed8 (s.bal.get c) + r.2)) (setResult r.1 r.2 s)

theorem exec_enc (c : Fin 3) (pix : Byte) (s : State) :
    exec (.enc (BitVec.ofNat 2 c.val) pix) s = .next (encoded c pix s) := by
  show execEnc _ pix s = _
  rw [execEnc, index3?_ofNat]
  rfl

/-- BAL[c] after ENC, as a signed integer (R180). -/
theorem toInt_bal_encoded (c : Fin 3) (pix : Byte) (s : State) :
    ((encoded c pix s).bal.get c).toInt = signed8 (s.bal.get c) + (tmdsCode pix (signed8 (s.bal.get c))).2 := by
  obtain ⟨hlo, hhi⟩ := tmdsCode_balance_fits pix (signed8_range (s.bal.get c))
  rw [encoded, setBal_bal, Tri.get_set_same]
  exact signed8_enc8 hlo hhi

theorem bal_encoded_other {c d : Fin 3} (h : d ≠ c) (pix : Byte) (s : State) :
    (encoded c pix s).bal.get d = s.bal.get d := Tri.get_set_other _ _ h

/-! ## FENC is ENC (R221) -/

theorem execFenc_eq_execEnc (ch : BitVec 2) (pix : Byte) (s : State) : execFenc ch pix s = execEnc ch pix s := by
  unfold execFenc execEnc
  cases index3? ch with
  | none => rfl
  | some c => simp only [fastEncode_eq_tmdsCode, signed8_lutDelta_stateIndex]

/-! ## LUTRD -/

theorem exec_lutrd (st : Fin 3) (pix : Byte) (s : State) :
    exec (.lutrd (BitVec.ofNat 2 st.val) pix) s =
      .next (setResult (lutCode pix st) (signed8 (lutDelta pix st)) s) := by
  show execLutrd _ pix s = _
  rw [execLutrd, index3?_ofNat]

/-! ## The statements -/

/-- Settles O26: the delta fits RES_DELTA, and the new balance fits the 8 bits of BAL. -/
theorem encResult : Obligations.EncResult := fun s c pix =>
  ⟨encoded c pix s, exec_enc c pix s, rfl, toInt_sext32_delta pix _, toInt_bal_encoded c pix s,
    fun _ hd => bal_encoded_other hd pix s, rfl⟩

/-- Settles O27: the reserved index names no channel and no column, and `raise` is the state the statement writes out. -/
theorem reservedIndexRaisesCmdError : Obligations.ReservedIndexRaisesCmdError :=
  fun _ _ => ⟨rfl, rfl, rfl⟩

/-- Settles O31: FASTENCODE is TMDSCODE at every balance. -/
theorem fencEqualsEnc : Obligations.FencEqualsEnc := fun s ch pix => execFenc_eq_execEnc ch pix s

/-- Settles O30: FENC is ENC, whose code and delta are the table's at the balance's sign. -/
theorem fencResult : Obligations.FencResult := by
  intro s c pix b st
  have hst : st = stateIndex b := rfl
  have hcode : lutCode pix st = (tmdsCode pix b).1 := by rw [hst, lutCode_stateIndex]
  have hdelta : (lutDelta pix st).toInt = (tmdsCode pix b).2 := by rw [hst]; exact signed8_lutDelta_stateIndex pix b
  rw [hcode, hdelta]
  exact ⟨encoded c pix s, (fencEqualsEnc s _ pix).trans (exec_enc c pix s), rfl, toInt_sext32_delta pix _,
    toInt_bal_encoded c pix s, fun _ hd => bal_encoded_other hd pix s, rfl⟩

/-- Settles O32: the entry of a column is the coder's code and delta at the balance the column is built at. -/
theorem lutrdResult : Obligations.LutrdResult := by
  intro s st pix
  refine ⟨_, exec_lutrd st pix s, rfl, ?_, rfl⟩
  rw [setResult_resDelta, signed8_lutDelta]
  exact toInt_sext32_delta pix _

end Sys2Proof.Machine
end

section
/-! Proofs of the statements about the blanking pattern and BLKRD (42_blanking R246 to R251). -/

namespace Sys2Proof.Machine

variable {s : State} {m : VideoMode}

/-! ## Bands (R246) -/

theorem band_eq_mid_iff {p t fp bp : Nat} : band p t fp bp = .mid ↔ fp ≤ p ∧ p + bp < t := by
  unfold band
  split
  · next h => simp; omega
  · next h => simp; omega

theorem band_eq_outer_iff {p t fp bp : Nat} : band p t fp bp = .outer ↔ p < fp ∨ (t : Int) - bp ≤ p := by
  have hmid := band_eq_mid_iff (p := p) (t := t) (fp := fp) (bp := bp)
  cases h : band p t fp bp with
  | outer => simp only [h, reduceCtorEq, false_iff] at hmid; simp only [true_iff]; omega
  | mid => have := hmid.1 h; simp only [reduceCtorEq, false_iff]; omega

/-- How many positions of an axis lie in a band. -/
def bandCount (bd : Band) (t fp bp : Nat) : Nat := (List.range t).countP fun p => band p t fp bp = bd

/-- The middle band of an axis is what the porches leave (R250). -/
theorem bandCount_mid (t fp bp : Nat) : bandCount .mid t fp bp = t - (fp + bp) := by
  have hcount (n : Nat) : (List.range n).countP (fun p => band p t fp bp = .mid) = min n (t - bp) - fp := by
    simp only [band_eq_mid_iff]
    induction n with
    | zero => simp
    | succ n ih =>
      rw [List.range_succ, List.countP_append, ih, List.countP_singleton]
      split
      · next h => rw [decide_eq_true_iff] at h; omega
      · next h => rw [decide_eq_true_iff] at h; omega
  rw [bandCount, hcount]; omega

/-- The outer band of an axis is the two porches (R250). -/
theorem bandCount_outer {t fp bp : Nat} (h : fp + bp ≤ t) : bandCount .outer t fp bp = fp + bp := by
  have hsplit := List.length_eq_countP_add_countP (fun p => decide (band p t fp bp = .mid)) (l := List.range t)
  have houter (p : Nat) : (¬ decide (band p t fp bp = .mid) = true) ↔ band p t fp bp = .outer := by
    cases band p t fp bp <;> simp
  have hmid := bandCount_mid t fp bp
  simp only [houter, List.length_range] at hsplit
  rw [bandCount] at hmid ⊢
  omega

/-! ## The codes of the regions (R247) -/

/-- The code of a region: the vertical band first. -/
def regionCode : Band → Band → Sym
  | .outer, .outer => codeCorner
  | .outer, .mid => codeTopBottom
  | .mid, .outer => codeLeftRight
  | .mid, .mid => codeCenter

theorem blankCode_eq_regionCode (g : Geometry) (x y : Nat) : blankCode g x y =
    regionCode (band y g.vTotal g.vFrontPorch g.vBackPorch) (band x g.hTotal g.hFrontPorch g.hBackPorch) := by
  unfold blankCode
  split <;> simp_all [regionCode]

/-- The four regions have four codes (R245). -/
theorem regionCode_inj {v v' h h' : Band} : regionCode v h = regionCode v' h' ↔ v = v' ∧ h = h' := by
  cases v <;> cases v' <;> cases h <;> cases h' <;> decide

/-- A region's code occurs once per row of its vertical band and column of its horizontal one (R250). -/
theorem countCode_regionCode (g : Geometry) (v h : Band) : countCode (regionCode v h) (buildBlanking g) =
    bandCount v g.vTotal g.vFrontPorch g.vBackPorch * bandCount h g.hTotal g.hFrontPorch g.hBackPorch := by
  have hrow (y : Nat) : ((List.range g.hTotal).map fun x => blankCode g x y).count (regionCode v h) =
      if band y g.vTotal g.vFrontPorch g.vBackPorch = v then bandCount h g.hTotal g.hFrontPorch g.hBackPorch else 0 := by
    rw [List.count_eq_countP, List.countP_map]
    split
    · next hv => exact List.countP_congr fun x _ => by simp [blankCode_eq_regionCode, regionCode_inj, hv]
    · next hv => exact List.countP_eq_zero.2 fun x _ => by simp [blankCode_eq_regionCode, regionCode_inj, hv]
  simp only [countCode, buildBlanking, List.map_map, Function.comp_def, hrow, bandCount]
  generalize (List.range g.hTotal).countP _ = n
  induction List.range g.vTotal with
  | nil => simp
  | cons y ys ih =>
    rw [List.map_cons, List.sum_cons, ih, List.countP_cons]
    split <;> simp_all [Nat.add_mul, Nat.add_comm]

/-- The region sizes of a geometry whose porches fit its totals (R250). -/
theorem regionSizes {g : Geometry} (hh : g.hFrontPorch + g.hBackPorch ≤ g.hTotal)
    (hv : g.vFrontPorch + g.vBackPorch ≤ g.vTotal) :
    let ho := g.hFrontPorch + g.hBackPorch
    let vo := g.vFrontPorch + g.vBackPorch
    countCode 0x354 (buildBlanking g) = vo * ho ∧ countCode 0x0AB (buildBlanking g) = vo * (g.hTotal - ho) ∧
    countCode 0x154 (buildBlanking g) = (g.vTotal - vo) * ho ∧
    countCode 0x2AB (buildBlanking g) = (g.vTotal - vo) * (g.hTotal - ho) := by
  intro ho vo
  have hcount := countCode_regionCode g
  refine ⟨(hcount .outer .outer).trans ?_, (hcount .outer .mid).trans ?_, (hcount .mid .outer).trans ?_,
    (hcount .mid .mid).trans ?_⟩ <;> simp only [bandCount_mid, bandCount_outer hh, bandCount_outer hv, ho, vo]

/-! ## BLKRD (R251) -/

theorem geom_of_isKey (h : IsKey s m) : geom s = some (s.platform.params.modes.get m) :=
  geom_eq_some.2 ⟨m, h.1, h.2, rfl⟩

/-- A size that is no key has no geometry to read (R251). -/
theorem execBlkrd_of_geom_none (h : geom s = none) (x y : BitVec 12) : execBlkrd x y s = .next (raise .res s) := by
  rw [execBlkrd, h]

theorem execBlkrd_outside {g : Geometry} {x y : BitVec 12} (h : geom s = some g)
    (hxy : g.hTotal ≤ x.toNat ∨ g.vTotal ≤ y.toNat) : execBlkrd x y s = .next (raise .range s) := by
  rw [execBlkrd, h]
  exact if_pos hxy

theorem execBlkrd_inside {g : Geometry} {x y : BitVec 12} (h : geom s = some g)
    (hx : x.toNat < g.hTotal) (hy : y.toNat < g.vTotal) :
    execBlkrd x y s = .next (setResult (blankCode g x.toNat y.toNat) 0 s) := by
  rw [execBlkrd, h]
  exact if_neg (by omega)

/-! ## The statements -/

/-- Settles O33: between the porches both bands are the middle ones, by the well-formedness of the mode (R242). -/
theorem activeWindowIsCentre : Obligations.ActiveWindowIsCentre := by
  intro p m x y g hx₁ hx₂ hy₁ hy₂
  obtain ⟨hh, hv, -, -⟩ := geometry_wf p m
  change g.hFrontPorch + m.hActive + g.hBackPorch ≤ g.hTotal at hh
  change g.vFrontPorch + m.vActive + g.vBackPorch ≤ g.vTotal at hv
  have hy : band y g.vTotal g.vFrontPorch g.vBackPorch = .mid := band_eq_mid_iff.2 ⟨hy₁, by omega⟩
  have hx : band x g.hTotal g.hFrontPorch g.hBackPorch = .mid := band_eq_mid_iff.2 ⟨hx₁, by omega⟩
  rw [blankCode_eq_regionCode, hy, hx]
  rfl

/-- Settles O34: each region is a band of rows by a band of columns, and the default numbers are those of one geometry. -/
theorem blankingRegionSizes : Obligations.BlankingRegionSizes := by
  have hsizes (p : Platform) (m : VideoMode) := by
    obtain ⟨hh, hv, -, -⟩ := geometry_wf p m
    exact regionSizes (g := p.params.modes.get m) (by omega) (by omega)
  refine ⟨fun p m => ?_, hsizes .default .m640x480⟩
  obtain ⟨h₁, h₂, h₃, h₄⟩ := hsizes p m
  refine ⟨h₁, h₂, h₃, h₄, fun hh hv => ?_⟩
  rw [blankCode_eq_regionCode, band_eq_outer_iff.2 (.inl hv), band_eq_outer_iff.2 (.inl hh)]
  rfl

/-- Settles O35: inside the total frame of a key BLKRD reads the code of the position's region. -/
theorem blkrdResult : Obligations.BlkrdResult := by
  intro s m x y hkey g hx hy
  refine (execBlkrd_inside (geom_of_isKey hkey) hx hy).trans ?_
  simp only [← band_eq_outer_iff]
  rw [blankCode_eq_regionCode]
  cases band y.toNat g.vTotal g.vFrontPorch g.vBackPorch <;> cases band x.toNat g.hTotal g.hFrontPorch g.hBackPorch <;> rfl

/-- Settles O36: the lookup comes first; `raise` is the state the statement writes out. -/
theorem blkrdErrors : Obligations.BlkrdErrors := fun _ x y =>
  ⟨fun hkey => execBlkrd_of_geom_none (geom_eq_none hkey) x y, fun _ hkey hxy => execBlkrd_outside (geom_of_isKey hkey) hxy⟩

end Sys2Proof.Machine
end

section
/-! Proofs of the statements about the image COMPOSE reads and the TMDS frames it leaves (43_frame R282, R283, R286, R287). -/

namespace Sys2Proof.Machine

variable {s t : State} {m : VideoMode} {g : Option Geometry}

/-! ## COMPOSE past its checks -/

/-- Without blanking, or in passthrough, COMPOSE makes no lookup (R285). -/
theorem execCompose_eq_read_none (hs : ShapeOk s) (hm : passthrough s = true ∨ blankEn s = false) :
    execCompose s = composeRead none s := by
  rcases hm with hm | hm <;> simp [execCompose, shapeBad_eq_false_iff_shapeOk.2 hs, hm]

/-- With blanking, COMPOSE of a key's size reads by the key's geometry (R285). -/
theorem execCompose_eq_read_some {g : Geometry} (hs : ShapeOk s) (hp : passthrough s = false) (hb : blankEn s = true)
    (hg : geom s = some g) : execCompose s = composeRead (some g) s := by
  simp [execCompose, shapeBad_eq_false_iff_shapeOk.2 hs, hp, hb, hg]

/-- COMPOSE of an accepted shape, with a geometry where it needs one, goes on to its reads. -/
theorem execCompose_reads (hs : ShapeOk s) (h : passthrough s = true ∨ blankEn s = false ∨ ∃ m, IsKey s m) :
    ∃ g, execCompose s = composeRead g s := by
  by_cases hm : passthrough s = true ∨ blankEn s = false
  · exact ⟨none, execCompose_eq_read_none hs hm⟩
  · rw [not_or, Bool.not_eq_true, Bool.not_eq_false] at hm
    obtain ⟨hp, hb⟩ := hm
    obtain ⟨m, hkey⟩ : ∃ m, IsKey s m := by simpa [hp, hb] using h
    exact ⟨some _, execCompose_eq_read_some hs hp hb (geom_of_isKey hkey)⟩

/-- COMPOSE reads the cells IMG[0] to IMG[W*H*C - 1] (R282). -/
theorem srcImageOf_isSome_iff (hs : ShapeOk s) : (srcImageOf s).isSome = true ↔ ImageWritten s := by
  rw [Option.isSome_iff_exists]
  refine ⟨fun ⟨rows, hr⟩ => ?_, srcImageOf_isSome hs⟩
  exact written_of_srcImage (imgC_toNat_of_shape (shapeBad_eq_false_iff_shapeOk.2 hs)) hr

/-- An unwritten cell among them faults (R282). -/
theorem composeRead_eq_fault : composeRead g s = .fault .unwrittenImage ↔ ¬ (srcImageOf s).isSome = true := by
  unfold composeRead
  cases srcImageOf s <;> simp

theorem composeRead_completes : (∃ t, composeRead g s = .next t) ↔ (srcImageOf s).isSome = true := by
  unfold composeRead
  cases srcImageOf s <;> simp

/-- A COMPOSE that completes has read a written image of an accepted shape (R281, R282). -/
theorem written_of_composed (h : execCompose s = .next t) (hc : ComposedFrom s t) : ShapeOk s ∧ ImageWritten s := by
  obtain ⟨hs, g, rows, hr, -⟩ := execCompose_composed h hc
  exact ⟨hs, (srcImageOf_isSome_iff hs).1 (Option.isSome_iff_exists.2 ⟨rows, hr⟩)⟩

/-! ## The coded window in a filled frame (R287) -/

theorem length_overwriteAt_of_le {α : Type} {off : Nat} {new old : List α} (h : off + new.length ≤ old.length) :
    (overwriteAt off new old).length = old.length := by
  simp only [overwriteAt, List.length_append, List.length_take, List.length_drop]; omega

/-- A frame of `W` by `H` positions filled by `f`, with the coded rows overwritten from row `oy` and column `ox` on (R287). -/
def codedFrame (oy ox W H : Nat) (f : Nat → Nat → Tri Sym) (rows : List (List (Tri Byte))) : List SymRow :=
  overwriteRect oy ox (rows.map encodeRow) (fillFrame W H f)

theorem activeCells_eq_codedFrame (w h : Nat) (rows : List (List (Tri Byte))) :
    activeCells w h rows = codedFrame 0 0 w h (fun _ _ => Tri.all codeFill) rows := rfl

theorem blankedCells_eq_codedFrame (g : Geometry) (c : Fin 3) (rows : List (List (Tri Byte))) :
    blankedCells g c rows = codedFrame g.vFrontPorch g.hFrontPorch g.hTotal g.vTotal (blankFill g c) rows := rfl

section
variable {rows : List (List (Tri Byte))} {row : List (Tri Byte)} {oy ox W H y x : Nat} {f : Nat → Nat → Tri Sym}

theorem codedFrame_row_inside (hrow : rows[y]? = some row) (hH : oy + y < H) :
    (codedFrame oy ox W H f rows)[oy + y]? =
      some (overwriteAt ox (encodeRow row) ((List.range W).map fun x => f x (oy + y))) := by
  have hy : y < rows.length := (List.getElem?_eq_some_iff.1 hrow).1
  rw [codedFrame, overwriteRect_getElem?, if_pos (by simpa using hy), fillFrame_getElem? hH, Nat.add_sub_cancel_left,
    List.getElem?_map, hrow]
  rfl

theorem codedFrame_row_outside (hout : y < oy ∨ oy + rows.length ≤ y) (hH : y < H) :
    (codedFrame oy ox W H f rows)[y]? = some ((List.range W).map fun x => f x y) := by
  rw [codedFrame, overwriteRect_getElem?, if_neg (by rw [List.length_map]; omega), fillFrame_getElem? hH]

/-- Inside the window a cell is the row's code (R287, R293). -/
theorem codedFrame_cell_inside (hrow : rows[y]? = some row) (hH : oy + y < H) (hox : ox ≤ W) (hx : x < row.length)
    (c : Fin 3) :
    ((codedFrame oy ox W H f rows)[oy + y]?.bind (·[ox + x]?)).map (·.get c) = (rowCode (channelOf c row))[x]? := by
  rw [codedFrame_row_inside hrow hH, Option.bind_some, getElem?_overwriteAt _ _ _ (by simpa using hox),
    if_pos (by simpa using hx), Nat.add_sub_cancel_left, ← channelOf_encodeRow, channelOf_getElem?]

variable {w : Nat} (hcols : ∀ row ∈ rows, row.length = w) (hoxw : ox + w ≤ W)
include hcols hoxw

/-- Outside the window a cell keeps the fill (R287). -/
theorem codedFrame_cell_outside (hH : y < H) (hW : x < W)
    (hout : ¬ (oy ≤ y ∧ y < oy + rows.length ∧ ox ≤ x ∧ x < ox + w)) (c : Fin 3) :
    ((codedFrame oy ox W H f rows)[y]?.bind (·[x]?)).map (·.get c) = some ((f x y).get c) := by
  by_cases hy : oy ≤ y ∧ y < oy + rows.length
  · obtain ⟨k, rfl⟩ := Nat.exists_eq_add_of_le hy.1
    have hk : rows[k]? = some rows[k] := List.getElem?_eq_getElem (by omega)
    have hlen : rows[k].length = w := hcols _ (List.getElem_mem _)
    rw [codedFrame_row_inside hk hH, Option.bind_some, getElem?_overwriteAt _ _ _ (by simp; omega),
      if_neg (by rw [length_encodeRow]; omega)]
    simp [hW]
  · rw [codedFrame_row_outside (by omega) hH]
    simp [hW]

/-- The frame has `H` rows of `W` positions. -/
theorem codedFrame_size :
    (codedFrame oy ox W H f rows).length = H ∧ ∀ r ∈ codedFrame oy ox W H f rows, r.length = W := by
  have hlen : (codedFrame oy ox W H f rows).length = H := by simp [codedFrame]
  refine ⟨hlen, fun r hr => ?_⟩
  obtain ⟨y, hy⟩ := List.mem_iff_getElem?.1 hr
  have hH : y < H := hlen ▸ (List.getElem?_eq_some_iff.1 hy).1
  by_cases hin : oy ≤ y ∧ y < oy + rows.length
  · obtain ⟨k, rfl⟩ := Nat.exists_eq_add_of_le hin.1
    have hk : rows[k]? = some rows[k] := List.getElem?_eq_getElem (by omega)
    have hw : rows[k].length = w := hcols _ (List.getElem_mem _)
    rw [codedFrame_row_inside hk hH, Option.some.injEq] at hy
    rw [← hy, length_overwriteAt_of_le (by simp; omega)]
    simp
  · rw [codedFrame_row_outside (by omega) hH, Option.some.injEq] at hy
    simp [← hy]

end

/-! ## The TMDS frames -/

theorem composeWith_active (hp : passthrough s = false) (rows : List (List (Tri Byte))) :
    composeWith rows none s =
      publish s.imgW s.imgH (activeCells s.imgW.toNat s.imgH.toNat rows) (finalBalances rows s.bal) s := by
  simp [composeWith, hp]

theorem composeWith_blanked (hp : passthrough s = false) (rows : List (List (Tri Byte))) (g : Geometry) :
    composeWith rows (some g) s =
      publish (field12 g.hTotal) (field12 g.vTotal) (blankedCells g s.platform.params.syncCh rows)
        (finalBalances rows s.bal) s := by
  simp [composeWith, hp]

/-- The totals of a key fit the registers FB_W and FB_H (R9, R242). -/
theorem toNat_field12_totals (p : Platform) (m : VideoMode) :
    (field12 (p.params.modes.get m).hTotal).toNat = (p.params.modes.get m).hTotal ∧
      (field12 (p.params.modes.get m).vTotal).toNat = (p.params.modes.get m).vTotal := by
  obtain ⟨-, -, hw, hh⟩ := geometry_wf p m
  obtain ⟨hmw, hmh⟩ := max_le p
  exact ⟨toNat_field12 (by omega), toNat_field12 (by omega)⟩

/-- A balance in a TMDS COMPOSE is forgotten: every row starts from 0, and there is a row (R286). -/
theorem composeWith_bal_irrelevant {rows : List (List (Tri Byte))} (hp : passthrough s = false) (hrows : rows ≠ [])
    (g : Option Geometry) (b : Tri (BitVec 8)) : composeWith rows g { s with bal := b } = composeWith rows g s := by
  have hbal : finalBalances rows b = finalBalances rows s.bal := by
    rw [finalBalances, finalBalances, List.getLast?_eq_some_getLast hrows]
  have hp' : passthrough { s with bal := b } = false := hp
  cases g with
  | none => rw [composeWith_active hp, composeWith_active hp', ← hbal]; rfl
  | some g => rw [composeWith_blanked hp, composeWith_blanked hp', ← hbal]; rfl

/-! ## Source lines (R282) -/

/-- A source line is fixed by the cells. -/
theorem SourceLine.unique {y : Nat} {c : Fin 3} {ps qs : List Byte} (hp : SourceLine s y c ps) (hq : SourceLine s y c qs) :
    ps = qs := by
  refine List.ext_getElem? fun x => ?_
  rcases Nat.lt_or_ge x s.imgW.toNat with hx | hx
  · exact (hp.2 x hx).symm.trans (hq.2 x hx)
  · rw [List.getElem?_eq_none (hp.1.trans_le hx), List.getElem?_eq_none (hq.1.trans_le hx)]

/-- With one input channel the three channels of a line are one (R283). -/
theorem SourceLine.gray {y : Nat} {c : Fin 3} {ps : List Byte} (hC : s.imgC = 1) (h : SourceLine s y c ps) (d : Fin 3) :
    SourceLine s y d ps := by
  simpa [SourceLine, hC] using h

/-- With one input channel, cells that hold a line's codes are the same on the three channels (R283). -/
theorem coded_cells_gray {cell : Nat → Nat → Fin 3 → Option Sym} (hC : s.imgC = 1)
    (h : ∀ y (c : Fin 3), y < s.imgH.toNat → ∃ ps, SourceLine s y c ps ∧
      ∀ x < s.imgW.toNat, cell y x c = (rowCode ps)[x]?)
    (y x : Nat) (c : Fin 3) (hy : y < s.imgH.toNat) (hx : x < s.imgW.toNat) : cell y x c = cell y x 0 := by
  obtain ⟨ps, hps, hcode⟩ := h y c hy
  obtain ⟨qs, hqs, hcode₀⟩ := h y 0 hy
  rw [hcode x hx, hcode₀ x hx, (hps.gray hC 0).unique hqs]

/-! ## The statements -/

/-- Settles O39: past the checks only the reads can stop COMPOSE, and they do exactly at an unwritten cell. -/
theorem composeReadsTheImage : Obligations.ComposeReadsTheImage := by
  intro s hs hm
  obtain ⟨g, hread⟩ := execCompose_reads hs hm
  rw [← srcImageOf_isSome_iff hs]
  show (execCompose s = _ ↔ _) ∧ (_ ↔ ∃ t, execCompose s = _)
  rw [hread]
  exact ⟨composeRead_eq_fault, composeRead_completes.symm⟩

/-- Settles O41: the active frame is the coded rows over a fill of their own size. -/
theorem composeActiveFrame : Obligations.ComposeActiveFrame := by
  intro s hs hp hb hw
  obtain ⟨rows, hr, he⟩ := execCompose_unblanked hs (.inr hb) hw
  have hcomp := composedFrom_composeWith rows none s
  rw [composeWith_active hp, activeCells_eq_codedFrame] at he hcomp
  obtain ⟨hrows, hcols⟩ := codedFrame_size (oy := 0) (H := s.imgH.toNat) (f := fun _ _ => Tri.all codeFill)
    (srcImage_row_length hr) (Nat.zero_add _).le
  refine ⟨_, he, hcomp, rfl, rfl, fun y c hy => ?_, fun y x c hout => ?_⟩
  · obtain ⟨row, hrow, hlen, hline⟩ := sourceLine_of_srcImageOf hr c hy
    refine ⟨_, hline, fun x hx => ?_⟩
    rw [fbCell?_publish hrows hcols, if_pos ⟨hy, hx⟩]
    simpa using codedFrame_cell_inside (oy := 0) (ox := 0) hrow (by omega) (by omega) (by omega) c
  · rw [fbCell?_publish hrows hcols, if_neg (by omega)]

/-- Settles O42: the blanked frame is the coded rows over the blanking pattern, offset by the front porches, and the mode's
well-formedness leaves room for them. -/
theorem composeBlankedFrame : Obligations.ComposeBlankedFrame := by
  intro s m hs hp hb hkey hw g
  obtain ⟨rows, hr⟩ := srcImageOf_isSome hs hw
  have hread := execCompose_eq_read_some hs hp hb (geom_of_isKey hkey)
  have he := hread.trans (composeRead_eq_next.2 ⟨rows, hr, rfl⟩)
  have hcomp := composedFrom_composeWith rows (some g) s
  rw [composeWith_blanked hp, blankedCells_eq_codedFrame] at he hcomp
  obtain ⟨hwm, hhm⟩ := hkey
  obtain ⟨hh, hv, -, -⟩ := geometry_wf s.platform m
  change g.hFrontPorch + m.hActive + g.hBackPorch ≤ g.hTotal at hh
  change g.vFrontPorch + m.vActive + g.vBackPorch ≤ g.vTotal at hv
  have hfit : g.hFrontPorch + s.imgW.toNat ≤ g.hTotal := by omega
  have hlen : rows.length = s.imgH.toNat := (srcImage_spec hr).1
  obtain ⟨hrows, hcols⟩ := codedFrame_size (oy := g.vFrontPorch) (H := g.vTotal)
    (f := blankFill g s.platform.params.syncCh) (srcImage_row_length hr) hfit
  obtain ⟨hW, hH⟩ := toNat_field12_totals s.platform m
  refine ⟨_, he, hcomp, hW, hH, fun y c hy => ?_, fun y x c hy hx hout => ?_, fun y x c hout => ?_⟩
  · obtain ⟨row, hrow, hrowlen, hline⟩ := sourceLine_of_srcImageOf hr c hy
    refine ⟨_, hline, fun x hx => ?_⟩
    rw [fbCell?_publish hrows hcols, if_pos (by omega)]
    exact codedFrame_cell_inside hrow (by omega) (by omega) (by omega) c
  · rw [fbCell?_publish hrows hcols, if_pos ⟨hy, hx⟩,
      codedFrame_cell_outside (srcImage_row_length hr) hfit hy hx (by rwa [hlen]), blankFill, Tri.get_ofFn]
    rfl
  · rw [fbCell?_publish hrows hcols, if_neg (by omega)]

/-- Settles O44: with one input channel the three source lines are one, and so are their samples, codes and counters. -/
theorem grayscaleChannelsAgree : Obligations.GrayscaleChannelsAgree := by
  intro s t oy ox he hc hC hmode
  obtain ⟨hs, hw⟩ := written_of_composed he hc
  have hsame {u : State} (hu : exec .compose s = .next u) : u = t := Host.Outcome.next.inj (hu.symm.trans he)
  constructor
  · rcases hmode with ⟨hm, rfl, rfl⟩ | ⟨hp, hb, m, hkey, rfl, rfl⟩
    · simp only [Nat.zero_add]
      cases hp : s.ctrl.getLsbD 0 with
      | true =>
        obtain ⟨u, hu, -, -, -, -, hcell, -⟩ := composePassthroughFrame s hs hp hw
        obtain rfl := hsame hu
        intro y x c hy hx
        obtain ⟨v, hv, hcv⟩ := hcell y x c hy hx
        obtain ⟨v₀, hv₀, hcv₀⟩ := hcell y x 0 hy hx
        simp only [hC] at hv hv₀
        rw [hcv, hcv₀, Option.some.inj (hv.symm.trans hv₀)]
      | false =>
        obtain ⟨u, hu, -, -, -, hcell, -⟩ := composeActiveFrame s hs hp (hm.resolve_left (hp ▸ Bool.false_ne_true)) hw
        obtain rfl := hsame hu
        exact coded_cells_gray hC hcell
    · obtain ⟨u, hu, -, -, -, hcell, -⟩ := composeBlankedFrame s m hs hp hb hkey hw
      obtain rfl := hsame hu
      exact coded_cells_gray hC hcell
  · intro hp c
    obtain ⟨ps, hps, hbal⟩ := composeFinalBalances s t he hc hp c
    obtain ⟨qs, hqs, hbal₀⟩ := composeFinalBalances s t he hc hp 0
    rw [← BitVec.toInt_inj, hbal, hbal₀, (hps.gray hC 0).unique hqs]

/-- Settles O45: the checks and the reads do not see BAL, and every row of the frame starts from balance 0. -/
theorem startBalancesNeverMatter : Obligations.StartBalancesNeverMatter := by
  intro s t b hp he hc
  obtain ⟨hs, hw⟩ := written_of_composed he hc
  have hread {g : Option Geometry} (h : execCompose s = composeRead g s) :
      composeRead g { s with bal := b } = .next t := by
    obtain ⟨rows, hr, rfl⟩ := composeRead_eq_next.1 (h.symm.trans he)
    have hne : rows ≠ [] := by
      have hlen := (srcImage_spec hr).1
      obtain ⟨-, -, hH, -, -⟩ := hs
      exact List.ne_nil_of_length_pos (by omega)
    exact composeRead_eq_next.2 ⟨rows, hr, (composeWith_bal_irrelevant hp hne g b).symm⟩
  rcases execCompose_cases s with ⟨-, hraise⟩ | ⟨-, -, -, -, hraise⟩ | ⟨g, -, -, hb, hg, h⟩ | ⟨-, hm, h⟩
  · exact absurd hc (Host.Outcome.next.inj (hraise.symm.trans he) ▸ not_composedFrom_raise .shape)
  · exact absurd hc (Host.Outcome.next.inj (hraise.symm.trans he) ▸ not_composedFrom_raise .res)
  · exact (execCompose_eq_read_some (s := { s with bal := b }) hs hp hb hg).trans (hread h)
  · exact (execCompose_eq_read_none (s := { s with bal := b }) hs hm).trans (hread h)

end Sys2Proof.Machine
end

section
/-! Proofs of the statements about FETCH after FETCH (44_line R325, R326). -/

namespace Sys2Proof.Machine

variable {s t u : State}

/-! ## What every FETCH keeps -/

/-- `t` holds the frame that `s` holds, in the same mode. -/
structure SameFrame (s t : State) : Prop where
  fb : t.fb = s.fb
  fbW : t.fbW = s.fbW
  fbH : t.fbH = s.fbH
  ctrl : t.ctrl = s.ctrl

theorem SameFrame.trans (h : SameFrame s t) (h' : SameFrame t u) : SameFrame s u :=
  ⟨h'.fb.trans h.fb, h'.fbW.trans h.fbW, h'.fbH.trans h.fbH, h'.ctrl.trans h.ctrl⟩

theorem SameFrame.holdsFrame (h : SameFrame s t) (hs : HoldsFrame s) : HoldsFrame t := by
  simpa only [HoldsFrame, h.fb, h.fbW, h.fbH] using hs

theorem SameFrame.fbCell? (h : SameFrame s t) (y x : Nat) (c : Fin 3) : fbCell? t y x c = fbCell? s y x c := by
  rw [Machine.fbCell?, Machine.fbCell?, h.fb]

/-- What the FETCH that serves row `r` of the frame of `s` leaves (R323). -/
structure ServesRow (s : State) (r : Nat) (u : State) : Prop where
  lineValid : u.lineValid = true
  eos : u.eos = false
  lineNo : u.lineNo.toNat = r
  cells : ∀ x (c : Fin 3), x < s.fbW.toNat → lbCell? u x c = Machine.fbCell? s r x c

theorem ServesRow.of_sameFrame {r : Nat} (h : SameFrame s t) (hu : ServesRow t r u) : ServesRow s r u :=
  ⟨hu.lineValid, hu.eos, hu.lineNo, fun x c hx => (hu.cells x c (h.fbW ▸ hx)).trans (h.fbCell? r x c)⟩

/-- FETCH with the cursor in the frame: the row at CUR is served, and CUR moves on (R322, R323). -/
theorem fetch_serves (hframe : HoldsFrame t) (hcur : t.cur.toNat < t.fbH.toNat) :
    ∃ u, exec .fetch t = .next u ∧ SameFrame t u ∧ ServesRow t t.cur.toNat u ∧
      u.cur.toNat = if oneShot t = false ∧ t.cur.toNat + 1 = t.fbH.toNat then 0 else t.cur.toNat + 1 := by
  obtain ⟨u, hu, hcells, -, -, hno, hvalid, heos, hnext, -, hrest⟩ := fetchServesRow t t.cur hframe (.inl ⟨hcur, rfl⟩)
  exact ⟨u, hu, ⟨by rw [hrest], by rw [hrest], by rw [hrest], by rw [hrest]⟩,
    ⟨hvalid, heos, congrArg BitVec.toNat hno, hcells⟩, hnext⟩

/-! ## Loop mode -/

/-- The next row modulo the number of rows. -/
theorem succ_mod_eq_ite {n : Nat} (hn : 0 < n) (k : Nat) : (k + 1) % n = if k % n + 1 = n then 0 else k % n + 1 := by
  have hk := Nat.mod_lt k hn
  rw [← Nat.mod_add_mod]
  split
  · next h => rw [h, Nat.mod_self]
  · next h => exact Nat.mod_eq_of_lt (by omega)

/-- In loop mode CUR goes round the rows (R325). -/
theorem fetches_loop (hframe : HoldsFrame s) (h0 : s.fbH ≠ 0) (hloop : oneShot s = false) (hcur : s.cur = 0) (k : Nat) :
    ∃ t, fetches k s = some t ∧ SameFrame s t ∧ t.cur.toNat = k % s.fbH.toNat := by
  have hpos := toNat_pos_of_ne h0
  induction k with
  | zero => exact ⟨s, rfl, ⟨rfl, rfl, rfl, rfl⟩, by simp [hcur]⟩
  | succ k ih =>
    obtain ⟨t, ht, hsame, hcur⟩ := ih
    have hin : t.cur.toNat < t.fbH.toNat := by rw [hcur, hsame.fbH]; exact Nat.mod_lt _ hpos
    obtain ⟨u, hu, hsame', -, hnext⟩ := fetch_serves (hsame.holdsFrame hframe) hin
    have hloop' : oneShot t = false := by rw [oneShot, hsame.ctrl]; exact hloop
    refine ⟨u, fetches_succ ht hu, hsame.trans hsame', ?_⟩
    rw [hnext, succ_mod_eq_ite hpos, hcur, hsame.fbH]
    simp [hloop']

/-! ## One-shot mode -/

/-- In one-shot mode CUR stops at the end of the frame (R326). -/
theorem fetches_oneShot (hframe : HoldsFrame s) (h0 : s.fbH ≠ 0) (hone : oneShot s = true) (hcur : s.cur = 0) (k : Nat) :
    ∃ t, fetches k s = some t ∧ SameFrame s t ∧ t.cur.toNat = min k s.fbH.toNat := by
  induction k with
  | zero => exact ⟨s, rfl, ⟨rfl, rfl, rfl, rfl⟩, by simp [hcur]⟩
  | succ k ih =>
    obtain ⟨t, ht, hsame, hcur⟩ := ih
    have hone' : oneShot t = true := by rw [oneShot, hsame.ctrl]; exact hone
    rcases Nat.lt_or_ge k s.fbH.toNat with hk | hk
    · have hin : t.cur.toNat < t.fbH.toNat := by rw [hcur, hsame.fbH]; omega
      obtain ⟨u, hu, hsame', -, hnext⟩ := fetch_serves (hsame.holdsFrame hframe) hin
      refine ⟨u, fetches_succ ht hu, hsame.trans hsame', ?_⟩
      rw [hnext, if_neg (by simp [hone']), hcur]
      omega
    · have hend : t.fbH.toNat ≤ t.cur.toNat := by rw [hcur, hsame.fbH]; omega
      refine ⟨endOfStream t, fetches_succ ht (execFetch_of_endOfStream (hsame.fbH ▸ h0) hend hone'),
        hsame.trans ⟨rfl, rfl, rfl, rfl⟩, ?_⟩
      rw [endOfStream_cur, hcur]
      omega

/-! ## The statements -/

/-- Settles O48: the cursor of fetch k is k modulo the rows, and the next FETCH serves that row. -/
theorem loopServesRowsInTurn : Obligations.LoopServesRowsInTurn := by
  intro s hframe h0 hloop hcur k
  obtain ⟨t, ht, hsame, hcur⟩ := fetches_loop hframe h0 hloop hcur k
  have hin : t.cur.toNat < t.fbH.toNat := by rw [hcur, hsame.fbH]; exact Nat.mod_lt _ (toNat_pos_of_ne h0)
  obtain ⟨u, hu, -, hserves, -⟩ := fetch_serves (hsame.holdsFrame hframe) hin
  rw [hcur] at hserves
  obtain ⟨hvalid, heos, hno, hcells⟩ := hserves.of_sameFrame hsame
  exact ⟨u, fetches_succ ht hu, hvalid, heos, hno, hcells⟩

/-- Settles O49: the cursor of fetch k is k up to the end of the frame, where every FETCH is end of stream. -/
theorem oneShotServesEachRowOnce : Obligations.OneShotServesEachRowOnce := by
  intro s hframe h0 hone hcur k
  obtain ⟨t, ht, hsame, hcur⟩ := fetches_oneShot hframe h0 hone hcur k
  rcases Nat.lt_or_ge k s.fbH.toNat with hk | hk
  · rw [Nat.min_eq_left hk.le] at hcur
    obtain ⟨u, hu, -, hserves, -⟩ := fetch_serves (hsame.holdsFrame hframe) (by rwa [hcur, hsame.fbH])
    rw [hcur] at hserves
    obtain ⟨hvalid, heos, hno, hcells⟩ := hserves.of_sameFrame hsame
    exact ⟨u, fetches_succ ht hu, fun _ => ⟨hvalid, heos, hno, hcells⟩, fun h => absurd hk (Nat.not_lt.2 h)⟩
  · rw [Nat.min_eq_right hk] at hcur
    have hone' : oneShot t = true := by rw [oneShot, hsame.ctrl]; exact hone
    have hend := execFetch_of_endOfStream (hsame.fbH ▸ h0) (by rw [hcur, hsame.fbH]) hone'
    exact ⟨endOfStream t, fetches_succ ht hend, fun h => absurd h (Nat.not_lt.2 hk), fun _ => ⟨rfl, rfl⟩⟩

end Sys2Proof.Machine
end

section
/-! Proofs of the statements about the registers and the host bus (10_state R33 to R47, R55; 20_memory R80 to R86, R96). -/

namespace Sys2Proof.Machine

variable {s : State} {m : VideoMode}

/-! ## STATUS (R35) -/

/-- STATUS as a number. -/
theorem toNat_statusWord (s : State) : (statusWord s).toNat =
    (modeHit s).toNat * 65536 + s.errCode.toNat * 256 + s.lineValid.toNat * 8 + s.eos.toNat * 4 + s.err.toNat * 2 +
      s.busy.toNat := by
  simp only [statusWord, toNat_append_eq, BitVec.toNat_ofBool, BitVec.ofNat_eq_ofNat, BitVec.toNat_ofNat, Nat.zero_mod]
  omega

/-- A bit of a word, by arithmetic on the word. -/
theorem getLsbD_eq_div_mod (w : Word) (i : Nat) : w.getLsbD i = decide (w.toNat / 2 ^ i % 2 = 1) :=
  Nat.testBit_eq_decide_div_mod_eq

/-! ## The geometry registers (R47) -/

theorem toNat_zext32 {n : Nat} (h : n ≤ 32) (v : BitVec n) : (zext32 v).toNat = v.toNat :=
  BitVec.toNat_setWidth_of_le h

/-- A read of a balance is its signed value (R40). -/
theorem toInt_sext32_signed8 (v : BitVec 8) : (sext32 (signed8 v)).toInt = v.toInt := by
  obtain ⟨hlo, hhi⟩ := signed8_range v
  exact toInt_sext32 (by omega) (by omega)

/-- A written field reads back as the low bits of the word. -/
theorem toNat_zext32_slice {n : Nat} (h : n ≤ 32) (v : Word) : (zext32 (v.extractLsb' 0 n)).toNat = v.toNat % 2 ^ n := by
  rw [toNat_zext32 h, toNat_field, pow_zero, Nat.div_one]

/-- The signed value of a word's low byte. -/
theorem toInt_low_byte (v : Word) : (v.extractLsb' 0 8).toInt =
    if v.toNat % 256 < 128 then (v.toNat % 256 : Int) else (v.toNat % 256 : Int) - 256 := by
  have hbyte : (v.extractLsb' 0 8).toNat = v.toNat % 256 := by rw [toNat_field]; omega
  rw [BitVec.toInt_eq_toNat_cond, hbyte]
  split <;> split <;> omega

/-- A G_* register of a key reads its field, which fits 12 bits (R9, R242). -/
theorem toNat_geomField {f : Geometry → Nat} (h : IsKey s m) (hf : f (s.platform.params.modes.get m) ≤ 4095) :
    (geomField f s).toNat = f (s.platform.params.modes.get m) := by
  rw [geomField, geom_of_isKey h]
  exact (toNat_zext32 (by omega) _).trans (toNat_field12 hf)

/-- Every field of a key's geometry fits the 12 bits of its register (R9, R242). -/
theorem geometry_fields_le (p : Platform) (m : VideoMode) :
    let g := p.params.modes.get m
    g.hTotal ≤ 4095 ∧ g.vTotal ≤ 4095 ∧ g.hFrontPorch ≤ 4095 ∧ g.vFrontPorch ≤ 4095 ∧ g.hBackPorch ≤ 4095 ∧
      g.vBackPorch ≤ 4095 := by
  obtain ⟨hh, hv, hw, hht⟩ := geometry_wf p m
  obtain ⟨hmw, hmh⟩ := max_le p
  dsimp only
  omega

theorem modeHit_of_isKey (h : IsKey s m) : modeHit s = true := by simp [modeHit, geom_of_isKey h]

theorem modeHit_of_geom_none (h : geom s = none) : modeHit s = false := by simp [modeHit, h]

theorem geomField_of_geom_none (f : Geometry → Nat) (h : geom s = none) : geomField f s = 0 := by rw [geomField, h]

/-! ## The address map (R34 to R47, R82) -/

/-- The assigned offsets are the multiples of 4 up to 0x54 (R43). -/
theorem exists_regAt?_iff (a : Nat) : (∃ r, regAt? a = some r) ↔ a % 4 = 0 ∧ a ≤ 0x54 := by
  constructor
  · rintro ⟨r, h⟩
    revert h
    unfold regAt?
    split <;> simp
  · rintro ⟨h4, hle⟩
    obtain ⟨k, rfl⟩ : ∃ k, a = 4 * k := ⟨a / 4, by omega⟩
    have hk : k < 22 := by omega
    interval_cases k <;> exact ⟨_, rfl⟩

variable {addr v : Word} {n : Nat}

theorem exists_locate_reg_iff : (∃ r, locate s addr n = .ok (.reg r)) ↔ n = 4 ∧ addr.toNat % 4 = 0 ∧ addr.toNat ≤ 0x54 := by
  constructor
  · rintro ⟨r, h⟩
    obtain ⟨hn, -, hloc⟩ := locate_ok h
    have hr : regAt? addr.toNat = some r := by simpa using hloc
    exact ⟨hn, (exists_regAt?_iff _).1 ⟨r, hr⟩⟩
  · rintro ⟨rfl, ha⟩
    obtain ⟨r, hr⟩ := (exists_regAt?_iff _).2 ha
    exact ⟨r, locate_reg hr⟩

/-- The accesses that reach a window of `count` elements from `base` on, given what lies there (R82). -/
theorem exists_locate_window_iff {mk : Nat → Location} {base count : Nat} (hbase : base % 4 = 0)
    (hloc : ∀ i, locate s addr n = .ok (mk i) → i < count ∧ addr.toNat = base + 4 * i)
    (helem : ∀ i < count, locate s (BitVec.ofNat 32 (base + 4 * i)) 4 = .ok (mk i)) :
    (∃ i, locate s addr n = .ok (mk i)) ↔
      n = 4 ∧ addr.toNat % 4 = 0 ∧ base ≤ addr.toNat ∧ addr.toNat < base + 4 * count := by
  constructor
  · rintro ⟨i, h⟩
    obtain ⟨hi, haddr⟩ := hloc i h
    exact ⟨(locate_ok h).1, by omega, by omega, by omega⟩
  · rintro ⟨rfl, h4, hlo, hhi⟩
    have haddr : BitVec.ofNat 32 (base + 4 * ((addr.toNat - base) / 4)) = addr := by
      rw [show base + 4 * ((addr.toNat - base) / 4) = addr.toNat by omega, BitVec.ofNat_toNat, BitVec.setWidth_eq]
    exact ⟨_, haddr ▸ helem ((addr.toNat - base) / 4) (by omega)⟩

theorem exists_locate_img_iff : (∃ i, locate s addr n = .ok (.img i)) ↔
    n = 4 ∧ addr.toNat % 4 = 0 ∧ imgBase ≤ addr.toNat ∧ addr.toNat < imgBase + 4 * imgCap s :=
  exists_locate_window_iff rfl (fun _ h => by simpa using (locate_ok h).2.2) fun _ hi => locate_img hi

theorem exists_locate_fb_iff : (∃ i, locate s addr n = .ok (.fb i)) ↔
    n = 4 ∧ addr.toNat % 4 = 0 ∧ fbBase ≤ addr.toNat ∧ addr.toNat < fbBase + 4 * fbCount s :=
  exists_locate_window_iff rfl (fun _ h => by simpa using (locate_ok h).2.2) fun _ hi => locate_fb hi

theorem exists_locate_lb_iff : (∃ i, locate s addr n = .ok (.lb i)) ↔
    n = 4 ∧ addr.toNat % 4 = 0 ∧ lbBase ≤ addr.toNat ∧ addr.toNat < lbBase + 4 * lbCount s :=
  exists_locate_window_iff rfl (fun _ h => by simpa using (locate_ok h).2.2) fun _ hi => locate_lb hi

/-- The LB window has elements only while LINE_VALID = 1 (R85). -/
theorem mem_lbWindow_iff {a : Nat} : lbBase ≤ a ∧ a < lbBase + 4 * lbCount s ↔
    s.lineValid = true ∧ lbBase ≤ a ∧ a < lbBase + 4 * (s.lineLen.toNat * 3) := by
  unfold lbCount
  cases s.lineValid <;> simp

/-! ## Accesses while BUSY = 1 (R96) -/

/-- A read of anything but STATUS and CMD is a draw (R96). -/
theorem readBusy_draw {l : Location} (hstatus : l ≠ .reg .status) (hcmd : l ≠ .reg .cmd) :
    readBusy l s = answerDraw Config.freeWord s := by
  unfold readBusy
  split
  · exact absurd rfl hstatus
  · exact absurd rfl hcmd
  · rfl

/-! ## Bus errors (R86) -/

/-- A read of a located element is no bus error: it answers, or meets an unwritten symbol. -/
theorem hostRead_ok_ne_busError {l : Location} (h : locate s addr n = .ok l) (e : BusError) :
    hostRead addr n s ≠ .fault (.busError e) := by
  cases hb : s.busy with
  | true => simp [hostRead_busy hb h]
  | false =>
    rw [hostRead_idle hb h]
    cases l with
    | reg r => simp [readIdle]
    | img i => cases hi : Memory.read? s.img i <;> simp [readIdle, hi]
    | fb i => cases hi : fbElem? s i <;> simp [readIdle, hi]
    | lb i => cases hi : lbElem? s i <;> simp [readIdle, hi]

/-- A read is a bus error exactly when nothing is located (R86). -/
theorem hostRead_busError_iff : (∃ e, hostRead addr n s = .fault (.busError e)) ↔ ¬ ∃ l, locate s addr n = .ok l := by
  cases h : locate s addr n with
  | ok l => simp [hostRead_ok_ne_busError h]
  | error e => simp [hostRead_error h]

/-- A write is a bus error exactly when neither a register nor an IMG cell is located (R84 to R86). -/
theorem hostWrite_busError_iff : (∃ e, hostWrite addr n v s = .fault (.busError e)) ↔
    ¬ ((∃ r, locate s addr n = .ok (.reg r)) ∨ ∃ i, locate s addr n = .ok (.img i)) := by
  cases h : locate s addr n with
  | error e => simp [hostWrite_error h]
  | ok l =>
    unfold hostWrite
    rw [h]
    cases l <;> cases s.busy <;> simp [writeBusy, writeIdle]

/-- Where an element is located: at a register or in a window (R82). -/
theorem exists_locate_iff : (∃ l, locate s addr n = .ok l) ↔
    (∃ r, locate s addr n = .ok (.reg r)) ∨ (∃ i, locate s addr n = .ok (.img i)) ∨
      (∃ i, locate s addr n = .ok (.fb i)) ∨ ∃ i, locate s addr n = .ok (.lb i) := by
  constructor
  · rintro ⟨l, h⟩
    cases l with
    | reg r => exact .inl ⟨r, h⟩
    | img i => exact .inr (.inl ⟨i, h⟩)
    | fb i => exact .inr (.inr (.inl ⟨i, h⟩))
    | lb i => exact .inr (.inr (.inr ⟨i, h⟩))
  · rintro (⟨_, h⟩ | ⟨_, h⟩ | ⟨_, h⟩ | ⟨_, h⟩) <;> exact ⟨_, h⟩

/-! ## The statements -/

/-- Settles O2: STATUS as a number, and its fields by division. -/
theorem statusWordFields : Obligations.StatusWordFields := by
  intro s
  have hword := toNat_statusWord s
  have hcode := s.errCode.isLt
  have hbit {b : Bool} {k : Nat} (h : k = b.toNat) : decide (k = 1) = b := by subst h; cases b <;> rfl
  have hfield {k len : Nat} {v : BitVec len} (h : (statusWord s).toNat / 2 ^ k % 2 ^ len = v.toNat) :
      (statusWord s).extractLsb' k len = v := BitVec.eq_of_toNat_eq ((toNat_field _ _ _).trans h)
  have hzero {k len : Nat} (h : (statusWord s).toNat / 2 ^ k % 2 ^ len = 0) : (statusWord s).extractLsb' k len = 0 :=
    hfield (h.trans (BitVec.toNat_zero ..).symm)
  have h₁ := Bool.toNat_le s.busy
  have h₂ := Bool.toNat_le s.err
  have h₃ := Bool.toNat_le s.eos
  have h₄ := Bool.toNat_le s.lineValid
  simp only [getLsbD_eq_div_mod]
  have h₅ := Bool.toNat_le (modeHit s)
  refine ⟨hbit ?_, hbit ?_, hbit ?_, hbit ?_, hzero ?_, hfield ?_, hzero ?_, hbit ?_, hzero ?_⟩ <;> omega

/-- Settles O3: address 0 is CMD, which drops a word only for an error recorded and another opcode. -/
theorem cmdWriteIsAccepted : Obligations.CmdWriteIsAccepted := by
  intro s w hbusy h
  have haccept : cmdWrite w s = accept w s := by
    rcases cmdWrite_cases w s with haccept | ⟨herr, h8, h9, -⟩
    · exact haccept
    · rw [ne_eq, ← BitVec.toNat_inj, toNat_field] at h8 h9
      rcases h with h | h | h
      · rw [herr] at h; cases h
      · exact absurd (by simpa using h) h8
      · exact absurd (by simpa using h) h9
  calc hostWrite 0 4 w s
    _ = writeIdle (.reg .cmd) w s := hostWrite_idle hbusy (locate_reg rfl)
    _ = .next (cmdWrite w s) := rfl
    _ = .next (accept w s) := by rw [haccept]

/-- Settles O4: a key has its geometry, whose fields fit the registers; a size that is no key has none. -/
theorem geometryReadback : Obligations.GeometryReadback := by
  intro s
  have htotals {m : VideoMode} (hkey : IsKey s m) :
      (regRead s .gHTotal).toNat = (s.platform.params.modes.get m).hTotal ∧
        (regRead s .gVTotal).toNat = (s.platform.params.modes.get m).vTotal := by
    obtain ⟨h₁, h₂, -⟩ := geometry_fields_le s.platform m
    exact ⟨toNat_geomField hkey h₁, toNat_geomField hkey h₂⟩
  refine ⟨fun m hkey => ?_, fun hkey => ?_, fun hkey => ?_⟩
  · obtain ⟨-, -, h₃, h₄, h₅, h₆⟩ := geometry_fields_le s.platform m
    exact ⟨modeHit_of_isKey hkey, (htotals hkey).1, (htotals hkey).2, toNat_geomField hkey h₃, toNat_geomField hkey h₄,
      toNat_geomField hkey h₅, toNat_geomField hkey h₆⟩
  · obtain ⟨hw, hh⟩ := total_640x480 s.platform
    exact ⟨(htotals hkey).1.trans hw, (htotals hkey).2.trans hh⟩
  · have hg := geom_eq_none hkey
    have hzero (f : Geometry → Nat) : geomField f s = 0 := geomField_of_geom_none f hg
    exact ⟨modeHit_of_geom_none hg, hzero _, hzero _, hzero _, hzero _, hzero _, hzero _⟩

/-- Settles O5: the map is read off entry by entry; a written field is a slice of the word, and a read extends it. -/
theorem registerWrites : Obligations.RegisterWrites := by
  intro s v
  refine ⟨fun hbusy entry hentry => ?_, ?_, ?_, ?_, ?_, ?_, fun c => ⟨?_, fun d hd => Tri.get_set_other _ _ hd, rfl⟩, ?_⟩
  · have hmap : regAt? entry.1.toNat = some entry.2 := by
      revert entry; decide
    exact ⟨hostRead_idle hbusy (locate_reg hmap), hostWrite_idle hbusy (locate_reg hmap)⟩
  · have hz {n : Nat} (h : n ≤ 32) (f : BitVec n) : (zext32 f).toNat = f.toNat := toNat_zext32 h f
    refine ⟨rfl, rfl, hz (by omega) _, hz (by omega) _, hz (by omega) _, hz (by omega) _, hz (by omega) _, rfl,
      fun c => ?_, hz (by omega) _, hz (by omega) _, hz (by omega) _, hz (by omega) _, hz (by omega) _⟩
    exact toInt_sext32_signed8 _
  · exact ⟨toNat_zext32_slice (by omega) v, rfl⟩
  · exact ⟨toNat_zext32_slice (by omega) v, rfl⟩
  · exact ⟨toNat_zext32_slice (by omega) v, rfl⟩
  · exact ⟨toNat_zext32_slice (by omega) v, rfl⟩
  · rw [← toInt_low_byte]
    exact (toInt_sext32_signed8 _).trans (by rw [regWrite, setBal_bal, Tri.get_set_same])
  · simp [regWrite]

/-- Settles O6: every field of the reset state is 0, and nothing is listed. -/
theorem resetLeavesRegistersZero : Obligations.ResetLeavesRegistersZero := by
  refine ⟨rfl, fun r => ?_, fun _ => rfl, fun _ _ _ => rfl, fun _ _ => rfl⟩
  cases r with
  | bal c => fin_cases c <;> rfl
  | _ => rfl

/-- Settles O7: a read is a bus error when nothing is located, a write when neither a register nor an IMG cell is. -/
theorem busErrorsExactly : Obligations.BusErrorsExactly := by
  intro s addr v n a atReg inImg inFb inLb
  have hreg : (∃ r, locate s addr n = .ok (.reg r)) ↔ n = 4 ∧ a % 4 = 0 ∧ atReg := exists_locate_reg_iff
  have himg : (∃ i, locate s addr n = .ok (.img i)) ↔ n = 4 ∧ a % 4 = 0 ∧ inImg := exists_locate_img_iff
  have hfb : (∃ i, locate s addr n = .ok (.fb i)) ↔ n = 4 ∧ a % 4 = 0 ∧ inFb := exists_locate_fb_iff
  have hlb : (∃ i, locate s addr n = .ok (.lb i)) ↔ n = 4 ∧ a % 4 = 0 ∧ inLb :=
    exists_locate_lb_iff.trans (and_congr_right' (and_congr_right' mem_lbWindow_iff))
  rw [hostRead_busError_iff, exists_locate_iff, hostWrite_busError_iff, hreg, himg, hfb, hlb]
  clear hreg himg hfb hlb
  clear_value atReg inImg inFb inLb
  constructor <;> tauto

/-- Settles O11: BUSY = 1 selects `readBusy` and `writeBusy`, which answer by location. -/
theorem accessesWhileBusy : Obligations.AccessesWhileBusy := by
  intro s addr v l hbusy hl
  rw [hostRead_busy hbusy hl, hostWrite_busy hbusy hl]
  refine ⟨?_, ?_, fun hstatus hcmd => ⟨_, congrArg _ (readBusy_draw hstatus hcmd)⟩, ?_⟩
  · rintro rfl; rfl
  · rintro rfl; rfl
  · rintro (⟨r, rfl⟩ | ⟨i, rfl⟩) <;> rfl

end Sys2Proof.Machine
end

section
/-! What a command and a step can do, said once (10_state R33, 20_memory R93), and the proofs of the statements about every step:
what it keeps, what it logs, and that it keeps `State.Inv`. -/

namespace Sys2Proof.Machine

variable {s t u : State} {i : Instr}

/-! ## What a command can do -/

/-- Which command raises which code (R381). -/
def Raises : Instr → ErrCode → Prop
  | .enc ch _, e => e = .cmd ∧ ch = 3
  | .fenc ch _, e => e = .cmd ∧ ch = 3
  | .lutrd st _, e => e = .cmd ∧ st = 3
  | .blkrd _ _, e => e = .res ∨ e = .range
  | .compose, e => e = .shape ∨ e = .res
  | .fetch, e => e = .empty
  | _, _ => False

/-- A delta of the coder (R170). -/
def DeltaOk (d : Int) : Prop := -10 ≤ d ∧ d ≤ 10 ∧ d % 2 = 0

theorem deltaOk_tmdsCode (p : Byte) (b : Int) : DeltaOk (tmdsCode p b).2 := by
  obtain ⟨hlo, hhi, -, -⟩ := tmdsCode_delta_range p b
  exact ⟨hlo, hhi, tmdsCode_delta_even p b⟩

/-- The next states a command leads to from `s`. -/
inductive Effect (s : State) : Instr → State → Prop
  | raised {i : Instr} {e : ErrCode} : Raises i e → Effect s i (raise e s)
  | nop : Effect s .nop s
  | coded {i : Instr} {code : Sym} {delta : Int} (c : Fin 3) (v : BitVec 8) :
      SymWf code → DeltaOk delta → Effect s i (setBal c v (setResult code delta s))
  | result {i : Instr} {code : Sym} {delta : Int} : SymWf code → DeltaOk delta → Effect s i (setResult code delta s)
  | balrst {mask : BitVec 3} (b : Tri (BitVec 8)) : Effect s (.balrst mask) { s with bal := b }
  | composed {rows : List (List (Tri Byte))} {g : Option Geometry} : ShapeOk s → srcImageOf s = some rows →
      (∀ g', g = some g' → geom s = some g') → Effect s .compose (composeWith rows g s)
  | streamEnd : s.fbH ≠ 0 → s.fbH.toNat ≤ s.cur.toNat → Effect s .fetch (endOfStream s)
  | served {r : BitVec 12} {cells : SymRow} : r.toNat < s.fbH.toNat → fbRow? s r.toNat = some cells →
      Effect s .fetch (serveRow r cells s)
  | cleared : Effect s .clrerr (clearError s)
  | reset : Effect s .srst (resetRegisters s)

/-- ENC, and so FENC, raises E_CMD for the reserved channel, or writes the coder's results (R180, R221). -/
theorem effect_of_execEnc {ch : BitVec 2} {pix : Byte} (hraise : ch = 3 → Raises i .cmd)
    (h : execEnc ch pix s = .next t) : Effect s i t := by
  unfold execEnc at h
  split at h
  · next hch =>
    obtain rfl := Host.Outcome.next.inj h
    exact .raised (hraise ((index3?_eq_none_iff ch).1 hch))
  · obtain rfl := Host.Outcome.next.inj h
    exact .coded _ _ (tmdsCode_wf _ _) (deltaOk_tmdsCode _ _)

theorem effect_of_execLutrd {st : BitVec 2} {pix : Byte} (h : execLutrd st pix s = .next t) :
    Effect s (.lutrd st pix) t := by
  unfold execLutrd at h
  split at h
  · next hst =>
    obtain rfl := Host.Outcome.next.inj h
    exact .raised ⟨rfl, (index3?_eq_none_iff st).1 hst⟩
  · obtain rfl := Host.Outcome.next.inj h
    exact .result (lutCode_wf _ _) (signed8_lutDelta pix _ ▸ deltaOk_tmdsCode pix _)

theorem effect_of_execBlkrd {x y : BitVec 12} (h : execBlkrd x y s = .next t) : Effect s (.blkrd x y) t := by
  unfold execBlkrd at h
  split at h
  · obtain rfl := Host.Outcome.next.inj h
    exact .raised (.inl rfl)
  · split at h
    · obtain rfl := Host.Outcome.next.inj h
      exact .raised (.inr rfl)
    · obtain rfl := Host.Outcome.next.inj h
      exact .result (blankCode_wf _ _ _) (by unfold DeltaOk; decide)

theorem effect_of_execCompose (h : execCompose s = .next t) : Effect s .compose t := by
  rcases execCompose_cases s with ⟨-, he⟩ | ⟨-, -, -, -, he⟩ | ⟨g, hs, -, -, hg, he⟩ | ⟨hs, -, he⟩ <;> rw [he] at h
  · obtain rfl := Host.Outcome.next.inj h
    exact .raised (.inl rfl)
  · obtain rfl := Host.Outcome.next.inj h
    exact .raised (.inr rfl)
  · obtain ⟨rows, hr, rfl⟩ := composeRead_eq_next.1 h
    exact .composed (shapeBad_eq_false_iff_shapeOk.1 hs) hr fun g' hg' => hg.trans hg'
  · obtain ⟨rows, hr, rfl⟩ := composeRead_eq_next.1 h
    exact .composed (shapeBad_eq_false_iff_shapeOk.1 hs) hr fun g' hg' => nomatch hg'

theorem effect_of_fetchRow {r : BitVec 12} (hr : r.toNat < s.fbH.toNat) (h : fetchRow r s = .next t) :
    Effect s .fetch t := by
  obtain ⟨cells, hcells, rfl⟩ := fetchRow_eq_next.1 h
  exact .served hr hcells

theorem effect_of_execFetch (h : execFetch s = .next t) : Effect s .fetch t := by
  rcases execFetch_cases s with ⟨-, he⟩ | ⟨h0, hcur, -, he⟩ | ⟨h0, -, -, he⟩ | ⟨-, hcur, he⟩ <;> rw [he] at h
  · obtain rfl := Host.Outcome.next.inj h
    exact .raised rfl
  · obtain rfl := Host.Outcome.next.inj h
    exact .streamEnd h0 hcur
  · exact effect_of_fetchRow (r := 0) (toNat_pos_of_ne h0) h
  · exact effect_of_fetchRow hcur h

/-- What a command did when it answers a next state. -/
theorem effect_of_exec (h : exec i s = .next t) : Effect s i t := by
  cases i with
  | nop => obtain rfl := Host.Outcome.next.inj h; exact .nop
  | enc ch pix => exact effect_of_execEnc (fun hch => ⟨rfl, hch⟩) h
  | fenc ch pix => exact effect_of_execEnc (fun hch => ⟨rfl, hch⟩) ((execFenc_eq_execEnc ch pix s).symm.trans h)
  | balrst mask => obtain rfl := Host.Outcome.next.inj h; exact .balrst _
  | lutrd st pix => exact effect_of_execLutrd h
  | blkrd x y => exact effect_of_execBlkrd h
  | compose => exact effect_of_execCompose h
  | fetch => exact effect_of_execFetch h
  | clrerr => obtain rfl := Host.Outcome.next.inj h; exact .cleared
  | srst => obtain rfl := Host.Outcome.next.inj h; exact .reset

/-- A command keeps the event history, or it raises (R385, R393). -/
theorem Effect.errLog (h : Effect s i t) : t.errLog = s.errLog ∨ ∃ e, Raises i e ∧ t.errLog = e :: s.errLog := by
  cases h with
  | raised hr => exact .inr ⟨_, hr, rfl⟩
  | composed => exact .inl (composedFrom_composeWith _ _ s).errLog_eq
  | _ => exact .inl rfl

/-- No command changes the parameters (R426). -/
theorem Effect.platform (h : Effect s i t) : t.platform = s.platform := by
  cases h with
  | composed => rw [composedFrom_composeWith]
  | _ => rfl

/-- Only COMPOSE writes FB (R100). -/
theorem Effect.fb (h : Effect s i t) (hi : i ≠ .compose) : t.fb = s.fb := by
  cases h with
  | composed => exact absurd rfl hi
  | _ => rfl

/-! ## What a step can do -/

/-- The turn a step takes: the first of the schedule, or the engine's when there is none (R33, R93). -/
def State.nextTurn (s : State) : Turn := s.schedule.head?.getD .engine

/-- A step takes the next turn off the schedule (R93). -/
theorem step_eq_takeTurn (s : State) : step s = takeTurn s.nextTurn s.popTurn := by
  obtain ⟨_, _, _, _, _, _, _, _, _, _, _, _, _, _, _, _, _, _, _, _, _, _, _, sched, _, _, _, _⟩ := s
  cases sched <;> rfl

theorem nextTurn_of_head {turn : Turn} (h : s.schedule.head? = some turn) : s.nextTurn = turn := by
  rw [State.nextTurn, h]; rfl

theorem nextTurn_eq_engine_iff : s.nextTurn = .engine ↔ s.engineNext := by
  rw [State.nextTurn, State.engineNext]
  cases s.schedule <;> simp

theorem head_of_nextTurn {turn : Turn} (hne : turn ≠ .engine) (h : s.nextTurn = turn) : s.schedule.head? = some turn := by
  rw [State.nextTurn] at h
  cases hs : s.schedule.head? with
  | none => rw [hs] at h; exact absurd h.symm hne
  | some turn' => rw [hs] at h; exact congrArg some h

/-! ### What a turn does under `rst`, and with it released -/

theorem engineTurn_of_idle (hrst : s.rst = false) (hbusy : s.busy = false) : engineTurn s = .next s := by
  simp [engineTurn, hrst, hbusy]

theorem engineTurn_of_held (hrst : s.rst = true) : engineTurn s = .next (hardReset s) := if_pos hrst

theorem hostTurn_of_held (access : State → Result) (hrst : s.rst = true) :
    hostTurn access s = .refused .accessDuringReset := if_pos hrst

theorem hostTurn_of_released (access : State → Result) (hrst : s.rst = false) : hostTurn access s = access s :=
  if_neg (Bool.eq_false_iff.1 hrst)

/-! ### Every turn -/

/-- The next states a turn leads to from `s`, the turn taken off. -/
inductive TurnEffect (s : State) : Turn → State → Prop
  | reset : TurnEffect s (.rst true) (hardReset s)
  | released : TurnEffect s (.rst false) { s with rst := false }
  | held : s.rst = true → TurnEffect s .engine (hardReset s)
  | stays : TurnEffect s .engine s
  | illegal : s.busy = true → TurnEffect s .engine (idle (raise .cmd s))
  | command {i : Instr} {u : State} : s.busy = true → decode s.pending = .ok i → Effect s i u →
      TurnEffect s .engine (idle u)
  | read {addr : Word} {n : Nat} (rdata : Word) (draws : Nat) :
      TurnEffect s (.read addr n) { s with rdata := rdata, draws := draws }
  | busyWrite {addr v : Word} {n : Nat} : TurnEffect s (.write addr n v) (recordError .busy s)
  | regWrite {addr v : Word} {n : Nat} (r : Reg) : s.rst = false → TurnEffect s (.write addr n v) (regWrite r v s)
  | imgWrite {addr v : Word} {n i : Nat} (b : Byte) : i < imgCap s → TurnEffect s (.write addr n v) (imgWrite i b s)

theorem turnEffect_of_engineTurn (h : engineTurn s = .next t) : TurnEffect s .engine t := by
  rcases engineTurn_cases s with ⟨hrst, he⟩ | ⟨-, hbusy, he⟩ | ⟨-, -, he⟩ <;> rw [he] at h
  · obtain rfl := Host.Outcome.next.inj h
    exact .held hrst
  · obtain ⟨u, hu, rfl⟩ := finish_eq_next.1 h
    rcases executePending_cases s with ⟨i, hi, he⟩ | ⟨e, -, he⟩ <;> rw [he] at hu
    · exact .command hbusy hi (effect_of_exec hu)
    · obtain rfl := Host.Outcome.next.inj hu
      exact .illegal hbusy
  · obtain rfl := Host.Outcome.next.inj h
    exact .stays

theorem turnEffect_of_hostWrite {addr v : Word} {n : Nat} (hrst : s.rst = false) (h : hostWrite addr n v s = .next t) :
    TurnEffect s (.write addr n v) t := by
  rcases hostWrite_cases h with ⟨-, rfl⟩ | ⟨-, r, -, rfl⟩ | ⟨-, i, hi, rfl⟩
  · exact .busyWrite
  · exact .regWrite r hrst
  · obtain ⟨hcap, -⟩ : i < imgCap s ∧ addr.toNat = imgBase + 4 * i := by simpa using (locate_ok hi).2.2
    exact .imgWrite _ hcap

/-- What a turn did when it answers a next state. -/
theorem turnEffect_of_takeTurn {turn : Turn} (h : takeTurn turn s = .next t) : TurnEffect s turn t := by
  cases turn with
  | read addr n => rw [hostRead_frame (hostTurn_eq_next.1 h).2]; exact .read _ _
  | write addr n v =>
    obtain ⟨hrst, h⟩ := hostTurn_eq_next.1 h
    exact turnEffect_of_hostWrite hrst h
  | engine => exact turnEffect_of_engineTurn h
  | rst level =>
    cases level with
    | true => obtain rfl := Host.Outcome.next.inj h; exact .reset
    | false => obtain rfl := Host.Outcome.next.inj h; exact .released

theorem turnEffect_of_step (h : step s = .next t) : TurnEffect s.popTurn s.nextTurn t :=
  turnEffect_of_takeTurn ((step_eq_takeTurn s).symm.trans h)

/-- A register write leaves all but the handshake, CTRL, the image shape and the balances. -/
theorem regWrite_frame (r : Reg) (v : Word) (s : State) : regWrite r v s =
    { s with
      pending := (regWrite r v s).pending, busy := (regWrite r v s).busy, ctrl := (regWrite r v s).ctrl,
      imgW := (regWrite r v s).imgW, imgH := (regWrite r v s).imgH, imgC := (regWrite r v s).imgC,
      bal := (regWrite r v s).bal } := by
  cases r with
  | cmd =>
    rcases cmdWrite_cases v s with h | ⟨-, -, -, h⟩
    · simp only [regWrite, h]; rfl
    · simp only [regWrite, h]
  | _ => rfl

/-- No turn changes the parameters (R426). -/
theorem TurnEffect.platform {turn : Turn} (h : TurnEffect s turn t) : t.platform = s.platform := by
  cases h with
  | command _ _ heff => exact heff.platform
  | regWrite r => rw [regWrite_frame]
  | _ => rfl

/-- A turn keeps the event history or adds one error to it (R393). -/
theorem TurnEffect.errLog {turn : Turn} (h : TurnEffect s turn t) : t.errLog = s.errLog ∨ ∃ e, t.errLog = e :: s.errLog := by
  cases h with
  | illegal => exact .inr ⟨.cmd, rfl⟩
  | command _ _ heff => exact Or.imp_right (fun ⟨e, _, he⟩ => ⟨e, he⟩) heff.errLog
  | busyWrite => exact .inr ⟨.busy, rfl⟩
  | regWrite r => exact .inl (by rw [regWrite_frame])
  | _ => exact .inl rfl

/-! ## The statements about what a step keeps -/

/-- Settles O53: a longer history is that of a raise, whose code is among the command's. -/
theorem errorsOfEachCommand : Obligations.ErrorsOfEachCommand := by
  intro i s t e hexec hlog
  have hraises : Raises i e := by
    obtain hkept | ⟨e', hr, hadded⟩ := (effect_of_exec hexec).errLog
    · exact absurd (hlog.symm.trans hkept) (List.cons_ne_self e s.errLog)
    · rw [hadded] at hlog
      exact (List.cons.inj hlog).1 ▸ hr
  cases i <;> exact hraises

/-- Settles O55: a step is a turn, and a turn keeps the history or adds one error. -/
theorem errorHistoryOnlyGrows : Obligations.ErrorHistoryOnlyGrows := fun _ _ h => (turnEffect_of_step h).errLog

/-- Settles O57: neither a command nor any other turn writes the parameters. -/
theorem platformIsFixed : Obligations.PlatformIsFixed := fun _ _ h => (turnEffect_of_step h).platform

/-- Settles O12: with `rst` released only a command can write FB, and of the commands only COMPOSE does. -/
theorem onlyComposeWritesFrame : Obligations.OnlyComposeWritesFrame := by
  intro s t h hrst hedge hcompose
  have heff := turnEffect_of_step h
  generalize hturn : s.nextTurn = turn at heff
  cases heff with
  | reset => exact absurd (head_of_nextTurn (by decide) hturn) hedge
  | held hrst' => exact absurd (hrst.symm.trans hrst') Bool.false_ne_true
  | command hbusy hi heff =>
    refine heff.fb ?_
    rintro rfl
    exact hcompose ⟨nextTurn_eq_engine_iff.1 hturn, hbusy, hi⟩
  | regWrite r => rw [regWrite_frame]; rfl
  | _ => rfl

/-! ## The statements about what a step is -/

/-- Settles O1: the next turn is the engine's or the access, and `rst` is released. -/
theorem engineStepRunsTheDecodedCommand : Obligations.EngineStepRunsTheDecodedCommand := by
  intro s hrst
  refine ⟨fun hnext => ⟨fun i hbusy hi => ?_, fun hbusy => ?_⟩, fun addr n hread => ?_, fun addr n v hwrite => ?_⟩
  · have hexec : executePending s.popTurn = exec i s.popTurn := by
      rw [executePending, show decode s.popTurn.pending = .ok i from hi]
    rw [step_of_engineNext hnext, engineTurn_of_busy (s := s.popTurn) hrst hbusy, hexec]
    cases exec i s.popTurn <;> rfl
  · rw [step_of_engineNext hnext]
    exact engineTurn_of_idle hrst hbusy
  · rw [step_eq_takeTurn, nextTurn_of_head hread]
    exact hostTurn_of_released _ hrst
  · rw [step_eq_takeTurn, nextTurn_of_head hwrite]
    exact hostTurn_of_released _ hrst

/-- Settles O56: each of these turns is one operation on the state with the turn taken off. -/
theorem hardwareReset : Obligations.HardwareReset := by
  intro s
  refine ⟨fun h => ⟨hardReset s.popTurn, ?_, rfl⟩, fun h => ?_, fun hrst addr v n => ⟨fun h => ?_, fun h => ?_⟩⟩
  · rcases h with h | ⟨hrst, hnext⟩
    · rw [step_eq_takeTurn, nextTurn_of_head h]; rfl
    · rw [step_of_engineNext hnext]; exact engineTurn_of_held hrst
  · rw [step_eq_takeTurn, nextTurn_of_head h]; rfl
  · rw [step_eq_takeTurn, nextTurn_of_head h]; exact hostTurn_of_held _ hrst
  · rw [step_eq_takeTurn, nextTurn_of_head h]; exact hostTurn_of_held _ hrst

end Sys2Proof.Machine
end

section
/-! Proofs of the statements about the control commands (45_control) and about legal states (`State.Inv`). -/

namespace Sys2Proof.Machine

variable {s t : State} {i : Instr}

/-! ## The frames COMPOSE publishes are well-formed -/

/-- A sample, zero-extended, is a well-formed symbol (R284). -/
theorem symWf_setWidth (b : Byte) : SymWf (b.setWidth 16) := by
  have := b.isLt
  rw [SymWf, BitVec.toNat_setWidth_of_le (by omega)]
  omega

theorem passthroughCells_wf (rows : List (List (Tri Byte))) : ∀ row ∈ passthroughCells rows, ∀ p ∈ row, PosWf p := by
  intro row hrow p hp c
  obtain ⟨src, -, rfl⟩ := List.mem_map.1 hrow
  obtain ⟨q, -, rfl⟩ := List.mem_map.1 hp
  rw [Tri.get_ofFn]
  exact symWf_setWidth _

/-- A filled frame with coded rows overwritten is well-formed when its fill is (R287). -/
theorem codedFrame_wf {oy ox W H : Nat} {f : Nat → Nat → Tri Sym} (hf : ∀ x y, PosWf (f x y))
    (rows : List (List (Tri Byte))) : ∀ row ∈ codedFrame oy ox W H f rows, ∀ p ∈ row, PosWf p := by
  intro row hrow p hp
  rcases mem_overwriteRect hrow hp with ⟨r, hr, hpr⟩ | ⟨r, hr, hpr⟩
  · obtain ⟨src, -, rfl⟩ := List.mem_map.1 hr
    exact encodeRow_wf src p hpr
  · obtain ⟨y, -, rfl⟩ := List.mem_map.1 hr
    obtain ⟨x, -, rfl⟩ := List.mem_map.1 hpr
    exact hf x y

theorem posWf_codeFill : PosWf (Tri.all codeFill) := fun c => by
  rw [Tri.get_all]; unfold SymWf; decide

theorem posWf_blankFill (g : Geometry) (syncCh : Fin 3) (x y : Nat) : PosWf (blankFill g syncCh x y) := fun c => by
  rw [blankFill, Tri.get_ofFn]
  split
  · exact blankCode_wf g x y
  · unfold SymWf; decide

/-! ## Every command and every turn keeps the invariant -/

/-- A frame of the image's size (R284, R287). -/
theorem inv_publish_imageSize {cells : List SymRow} (h : s.Inv) (hs : ShapeOk s) (bal : Tri (BitVec 8))
    (hsize : cells.length = s.imgH.toNat ∧ ∀ row ∈ cells, row.length = s.imgW.toNat)
    (hwf : ∀ row ∈ cells, ∀ p ∈ row, PosWf p) : (publish s.imgW s.imgH cells bal s).Inv := by
  obtain ⟨-, hW, -, hmaxW, hmaxH⟩ := hs
  exact inv_publish h bal hW hmaxW hmaxH hsize.1.ge (fun row hrow => (hsize.2 row hrow).ge) hwf

/-- A frame of a key's total size, in which the image has room (R242, R287). -/
theorem inv_publish_totalSize {g : Geometry} {rows : List (List (Tri Byte))} (h : s.Inv) (hs : ShapeOk s)
    (hr : srcImageOf s = some rows) (hg : geom s = some g) (syncCh : Fin 3) (bal : Tri (BitVec 8)) :
    (publish (field12 g.hTotal) (field12 g.vTotal) (blankedCells g syncCh rows) bal s).Inv := by
  obtain ⟨m, hw, -, rfl⟩ := geom_eq_some.1 hg
  obtain ⟨hh, -, hmaxW, hmaxH⟩ := geometry_wf s.platform m
  obtain ⟨hW, hH⟩ := toNat_field12_totals s.platform m
  obtain ⟨-, hpos, -, -, -⟩ := hs
  have hfit : (s.platform.params.modes.get m).hFrontPorch + s.imgW.toNat ≤ (s.platform.params.modes.get m).hTotal := by
    omega
  rw [blankedCells_eq_codedFrame]
  obtain ⟨hrows, hcols⟩ := codedFrame_size (oy := (s.platform.params.modes.get m).vFrontPorch)
    (H := (s.platform.params.modes.get m).vTotal) (f := blankFill (s.platform.params.modes.get m) syncCh)
    (srcImage_row_length hr) hfit
  exact inv_publish h bal (by omega) (hW.trans_le hmaxW) (hH.trans_le hmaxH) (by rw [hH, hrows])
    (fun row hrow => by rw [hW, hcols row hrow]) (codedFrame_wf (posWf_blankFill _ _) rows)

/-- A completed COMPOSE of any kind (R280). -/
theorem inv_composeWith {g : Option Geometry} {rows : List (List (Tri Byte))} (h : s.Inv) (hs : ShapeOk s)
    (hr : srcImageOf s = some rows) (hg : ∀ g', g = some g' → geom s = some g') : (composeWith rows g s).Inv := by
  cases hp : passthrough s with
  | true =>
    rw [composeWith_passthrough hp]
    exact inv_publish_imageSize h hs _ (passthroughCells_size hr) (passthroughCells_wf rows)
  | false =>
    cases g with
    | none =>
      rw [composeWith_active hp, activeCells_eq_codedFrame]
      exact inv_publish_imageSize h hs _ (codedFrame_size (srcImage_row_length hr) (Nat.zero_add _).le)
        (codedFrame_wf (fun _ _ => posWf_codeFill) rows)
    | some g =>
      rw [composeWith_blanked hp]
      exact inv_publish_totalSize h hs hr (hg g rfl) _ _

/-- Every command keeps the invariant. -/
theorem Effect.inv (h : s.Inv) (heff : Effect s i t) : t.Inv := by
  cases heff with
  | raised => exact inv_raise h _
  | nop => exact h
  | coded c v hcode hdelta => exact inv_setBal (inv_setResult h hcode hdelta) c v
  | result hcode hdelta => exact inv_setResult h hcode hdelta
  | balrst b => exact inv_bal h b
  | composed hs hr hg => exact inv_composeWith h hs hr hg
  | streamEnd h0 hcur => exact inv_endOfStream h h0 hcur
  | served hr hcells => exact inv_serveRow h hr hcells
  | cleared => exact inv_clearError h
  | reset => exact inv_resetRegisters h

/-- An answer of the bus and any count of draws. -/
theorem inv_answered (h : s.Inv) (rdata : Word) (draws : Nat) : State.Inv { s with rdata := rdata, draws := draws } :=
  ⟨h.1, h.2, h.3, h.4, h.5, h.6, h.7, h.8, h.9, h.10, h.11, h.12, h.13, h.14, h.15, h.16, h.17⟩

/-- A register write with `rst` released keeps the invariant (R34 to R47). -/
theorem inv_regWrite (h : s.Inv) (hrst : s.rst = false) (r : Reg) (v : Word) : (regWrite r v s).Inv := by
  cases r with
  | cmd =>
    show (cmdWrite v s).Inv
    rcases cmdWrite_cases v s with hw | ⟨-, -, -, hw⟩ <;> rw [hw]
    · exact inv_accept h hrst v
    · exact h
  | ctrl => exact inv_shape h _ s.imgW s.imgH s.imgC
  | imgW => exact inv_shape h s.ctrl _ s.imgH s.imgC
  | imgH => exact inv_shape h s.ctrl s.imgW _ s.imgC
  | imgC => exact inv_shape h s.ctrl s.imgW s.imgH _
  | bal c => exact inv_setBal h c _
  | _ => exact h

/-- Every turn keeps the invariant. -/
theorem TurnEffect.inv {turn : Turn} (h : s.Inv) (heff : TurnEffect s turn t) : t.Inv := by
  cases heff with
  | reset => exact inv_hardReset s
  | released => exact inv_rstLow h
  | held => exact inv_hardReset s
  | stays => exact h
  | illegal => exact inv_idle (inv_raise h .cmd)
  | command _ _ heff => exact inv_idle (heff.inv h)
  | read rdata draws => exact inv_answered h rdata draws
  | busyWrite => exact inv_recordError h .busy
  | regWrite r hrst => exact inv_regWrite h hrst r _
  | imgWrite b hi => exact inv_imgWrite h hi b

/-! ## Legal states hold what they say they hold -/

/-- Every element of the FB window is a cell of the frame held (R84). -/
theorem fbElem?_of_holdsFrame (h : HoldsFrame s) {k : Nat} (hk : k < fbCount s) : ∃ v, fbElem? s k = some v := by
  have hpos : k / 3 < s.fbW.toNat * s.fbH.toNat := by rw [fbCount] at hk; omega
  have hw : 0 < s.fbW.toNat := Nat.pos_of_ne_zero fun h0 => by simp [h0] at hpos
  exact fbCell?_of_holdsFrame h (Nat.div_lt_of_lt_mul hpos) (Nat.mod_lt _ hw) _

/-- Every element of the LB window is a cell of the line held (R85). -/
theorem lbElem?_of_holdsLine (h : HoldsLine s) {k : Nat} (hk : k < lbCount s) : ∃ v, lbElem? s k = some v := by
  have hv : s.lineValid = true := by
    by_contra hv
    simp [lbCount, hv] at hk
  rw [lbCount_of_lineValid hv] at hk
  exact lbCell?_of_holdsLine h hv (by omega) _

/-- A read of a location in the windows' bounds answers (R83 to R85). -/
theorem readIdle_completes (hframe : HoldsFrame s) (hline : HoldsLine s) {addr : Word} {n : Nat} {l : Location}
    (hl : locate s addr n = .ok l) : ∃ t, readIdle l s = .next t := by
  obtain ⟨-, -, hloc⟩ := locate_ok hl
  cases l with
  | reg r => exact ⟨_, rfl⟩
  | img k => cases hk : Memory.read? s.img k <;> exact ⟨_, by rw [readIdle, hk]⟩
  | fb k =>
    obtain ⟨hk, -⟩ : k < fbCount s ∧ addr.toNat = fbBase + 4 * k := by simpa using hloc
    obtain ⟨v, hv⟩ := fbElem?_of_holdsFrame hframe hk
    exact ⟨_, readIdle_fb hv⟩
  | lb k =>
    obtain ⟨hk, -⟩ : k < lbCount s ∧ addr.toNat = lbBase + 4 * k := by simpa using hloc
    obtain ⟨v, hv⟩ := lbElem?_of_holdsLine hline hk
    exact ⟨_, readIdle_lb hv⟩

/-- A read stops at nothing but a bus error (R86). -/
theorem hostRead_completes_or_busError (hframe : HoldsFrame s) (hline : HoldsLine s) (addr : Word) (n : Nat) :
    (∃ t, hostRead addr n s = .next t) ∨ ∃ e, hostRead addr n s = .fault (.busError e) := by
  cases hl : locate s addr n with
  | error e => exact .inr ⟨e, hostRead_error hl⟩
  | ok l =>
    cases hb : s.busy with
    | true => exact .inl ⟨_, hostRead_busy hb hl⟩
    | false => exact .inl (hostRead_idle hb hl ▸ readIdle_completes hframe hline hl)

/-- FETCH answers from every state that holds its frame (R320). -/
theorem execFetch_completes (h : HoldsFrame s) : ∃ t, execFetch s = .next t := by
  have hrow {r : BitVec 12} (hr : r.toNat < s.fbH.toNat) : ∃ t, fetchRow r s = .next t := by
    obtain ⟨cells, -, he⟩ := fetchRow_of_holdsFrame h hr
    exact ⟨_, he⟩
  rcases execFetch_cases s with ⟨-, he⟩ | ⟨-, -, -, he⟩ | ⟨h0, -, -, he⟩ | ⟨-, hcur, he⟩ <;> rw [he]
  · exact ⟨_, rfl⟩
  · exact ⟨_, rfl⟩
  · exact hrow (r := 0) (toNat_pos_of_ne h0)
  · exact hrow hcur

/-! ## Soft reset -/

/-- After the registers are reset no size is a key (R355, R243). -/
theorem geom_resetRegisters (s : State) : geom (resetRegisters s) = none := rfl

theorem regRead_resetRegisters (s : State) (r : Reg) : regRead (resetRegisters s) r = 0 := by
  have hgeom (f : Geometry → Nat) := geomField_of_geom_none f (geom_resetRegisters s)
  cases r with
  | status =>
    apply BitVec.eq_of_toNat_eq
    rw [regRead, toNat_statusWord, modeHit_of_geom_none (geom_resetRegisters s)]
    simp
  | bal c => fin_cases c <;> rfl
  | gHTotal => exact hgeom Geometry.hTotal
  | gVTotal => exact hgeom Geometry.vTotal
  | gHfp => exact hgeom Geometry.hFrontPorch
  | gVfp => exact hgeom Geometry.vFrontPorch
  | gHbp => exact hgeom Geometry.hBackPorch
  | gVbp => exact hgeom Geometry.vBackPorch
  | _ => rfl

/-- With no frame and no line held, every read from the FB window's base on is a bus error (R84, R85). -/
theorem hostRead_windows_empty (hfb : fbCount s = 0) (hlb : lbCount s = 0) {addr : Word} (h : 0x20000000 ≤ addr.toNat)
    (n : Nat) : ∃ e, hostRead addr n s = .fault (.busError e) := by
  have hcap := imgCap_le s
  have hbase : imgBase = 0x10000000 := rfl
  rw [hostRead_busError_iff, exists_locate_iff, exists_locate_reg_iff, exists_locate_img_iff, exists_locate_fb_iff,
    exists_locate_lb_iff, hfb, hlb]
  omega

/-! ## The statements -/

/-- Settles O50: each of the three is one operation, and the mask selects balance by balance. -/
theorem controlCommandResults : Obligations.ControlCommandResults := by
  intro s
  exact ⟨rfl, fun mask => ⟨_, rfl, rfl, fun c => Tri.get_ofFn _ c⟩, rfl⟩

/-- Settles O51: SRST is `resetRegisters`, after which no frame, no line and no key is held. -/
theorem srstResult : Obligations.SrstResult := fun s =>
  ⟨resetRegisters s, rfl, rfl, regRead_resetRegisters s, fun _ n h => hostRead_windows_empty rfl rfl h n,
    _, execFetch_of_no_frame rfl, rfl⟩

/-- Settles O58: the reset state is an edge of `rst` from any state, and its release. -/
theorem resetIsLegal : Obligations.ResetIsLegal := inv_rstLow (inv_hardReset .reset)

/-- Settles O59: a step is a turn taken off the schedule, and every turn keeps the invariant, command by command. -/
theorem everyStepKeepsLegality : Obligations.EveryStepKeepsLegality :=
  fun s _ hinv h => (turnEffect_of_step h).inv (inv_schedule hinv s.schedule.tail)

/-- Settles O60: a legal state holds the frame and the line, so FETCH answers, and a read answers or is a bus error. -/
theorem legalStatesNeverReadUnwrittenSymbols : Obligations.LegalStatesNeverReadUnwrittenSymbols := by
  intro s hinv
  refine ⟨execFetch_completes hinv.frameHeld, fun addr n => ?_⟩
  rcases hostRead_completes_or_busError hinv.frameHeld hinv.lineHeld addr n with ⟨t, h⟩ | ⟨e, h⟩ <;> simp [h]

end Sys2Proof.Machine
end
